-- ==== Sys2Proof/Word.lean ====
section
/-! DEFINITION. The word types of the CORE: bytes, the program counter and register indices. -/

namespace Sys2Proof

/-- A byte: every register, memory cell, opcode, operand byte and FL value (R8). -/
abbrev Byte := BitVec 8

/-- The program counter: 9 bits, "an unsigned integer in 0..511, of which only 0..256 are reachable" (R8, R36). -/
abbrev PC := BitVec 9

/-- A legal register index: R0 to R7 (R20, R25). -/
abbrev RegIdx := Fin 8

end Sys2Proof
end

