-- ==== Sys2Proof/Syntax.lean ====
section
/-! DEFINITION. The instructions: one constructor per row of spec/opcode_table.json (R2, R73).
An operand is the whole byte that follows the opcode (R70, R72): a register-index field may hold a byte that names no
register, and WellFormed says which instructions are legal. -/

namespace Sys2Proof

/-- The 13 instructions of the ISA; "The instruction set cannot be extended" (R2). -/
inductive Instr where
  /-- LDI a, imm8: load immediate (R120). -/
  | ldi (a imm8 : Byte)
  /-- PRN a: print a register (R181). -/
  | prn (a : Byte)
  /-- MUL: multiply R0 by R1; the two operand bytes u and v are kept so that the encoding is, and are ignored (R141). -/
  | mul (u v : Byte)
  /-- PUSH a (R121). -/
  | push (a : Byte)
  /-- POP a (R122). -/
  | pop (a : Byte)
  /-- HLT (R182). -/
  | hlt
  /-- CALL a: a holds the target address (R161). -/
  | call (a : Byte)
  /-- RET (R162). -/
  | ret
  /-- ADD a, b: the sum goes to R0 (R142). -/
  | add (a b : Byte)
  /-- CMP a, b (R143). -/
  | cmp (a b : Byte)
  /-- JEQ a: a holds the target address (R163). -/
  | jeq (a : Byte)
  /-- JNE a: a holds the target address (R164). -/
  | jne (a : Byte)
  /-- JMP a: a holds the target address (R165). -/
  | jmp (a : Byte)
  deriving DecidableEq, Repr

end Sys2Proof
end

