-- ==== Sys2Proof/WellFormed.lean ====
section
/-! DEFINITION. Which instructions are legal: every register-index field holds 0..7 (R25, R72, R76). Every immediate is
legal and MUL's operand bytes are never illegal. -/

namespace Sys2Proof

/-- The byte names a register: "Only 0..7 are legal" (R72). -/
abbrev IsRegIndex (a : Byte) : Prop := a.toNat ≤ 7

/-- Every register-index field of the instruction names a register (R76). -/
def Instr.wellFormed : Instr → Bool
  | .ldi a _ | .prn a | .push a | .pop a | .call a | .jeq a | .jne a | .jmp a => decide (IsRegIndex a)
  | .add a b | .cmp a b => decide (IsRegIndex a) && decide (IsRegIndex b)
  | .mul _ _ | .hlt | .ret => true

end Sys2Proof
end

