-- ==== Sys2Proof/Decode.lean ====
section
/-! DEFINITION. Decoding bytes into instructions and encoding instructions into bytes, from the formats of R71 and the
opcode map of R73. -/

namespace Sys2Proof

/-- The five instruction formats (R71). -/
inductive Format where
  /-- Z: no operand. -/
  | z
  /-- R: one register. -/
  | r
  /-- RI: register, immediate. -/
  | ri
  /-- RR: two registers. -/
  | rr
  /-- XX: two ignored bytes. -/
  | xx
  deriving DecidableEq, Repr

/-- The number of bytes of an instruction, the opcode included (R71, R103). -/
def Format.width : Format → Nat
  | .z => 1
  | .r => 2
  | .ri => 3
  | .rr => 3
  | .xx => 3

/-- The operand bytes that stand in register-index fields, b1 before b2 (R71, R105). -/
def Format.registerFields (f : Format) (b1 b2 : Byte) : List Byte :=
  match f with
  | .z => []
  | .r => [b1]
  | .ri => [b1]
  | .rr => [b1, b2]
  | .xx => []

/-- One row of the dispatch table: the opcode byte, the format, and the instruction its operand bytes make. -/
structure Row where
  opcode : Byte
  format : Format
  build  : Byte → Byte → Instr

/-- The dispatch table, "a ROM": the 13 rows of the opcode map in its order (R41, R73). -/
def dispatchTable : List Row := [
  ⟨0x82, .ri, fun b1 b2 => .ldi b1 b2⟩,
  ⟨0x47, .r,  fun b1 _ => .prn b1⟩,
  ⟨0xA2, .xx, fun b1 b2 => .mul b1 b2⟩,
  ⟨0x45, .r,  fun b1 _ => .push b1⟩,
  ⟨0x46, .r,  fun b1 _ => .pop b1⟩,
  ⟨0x01, .z,  fun _ _ => .hlt⟩,
  ⟨0x50, .r,  fun b1 _ => .call b1⟩,
  ⟨0x11, .z,  fun _ _ => .ret⟩,
  ⟨0xA0, .rr, fun b1 b2 => .add b1 b2⟩,
  ⟨0xA7, .rr, fun b1 b2 => .cmp b1 b2⟩,
  ⟨0x55, .r,  fun b1 _ => .jeq b1⟩,
  ⟨0x56, .r,  fun b1 _ => .jne b1⟩,
  ⟨0x54, .r,  fun b1 _ => .jmp b1⟩]

/-- The row of an opcode, "matched on all 8 bits"; none for an illegal opcode (R73, R75). -/
def dispatch? (opcode : Byte) : Option Row :=
  dispatchTable.find? fun row => row.opcode == opcode

/-- Why a byte sequence decodes to no instruction. -/
inductive DecodeError where
  /-- The sequence ends before byte k of the instruction, byte 0 being the opcode (R101, R104). -/
  | missingByte (k : Nat)
  /-- The opcode has no row in the dispatch table (R102). -/
  | unknownOpcode (opcode : Byte)
  /-- A register field holds 8..255 (R105). -/
  | registerIndexOutOfRange (operand : Byte)
  deriving DecidableEq, Repr

/-- Operand fetch: the operand bytes of an instruction of the given width, b1 before b2 (R104). Operand bytes that the
width does not reach are 0 and no row of the table reads them. -/
def takeOperands (width : Nat) (bytes : List Byte) : Except DecodeError (Byte × Byte × List Byte) :=
  match width, bytes with
  | 2, b1 :: rest => .ok (b1, 0, rest)
  | 2, [] => .error (.missingByte 1)
  | 3, b1 :: b2 :: rest => .ok (b1, b2, rest)
  | 3, [_] => .error (.missingByte 2)
  | 3, [] => .error (.missingByte 1)
  | _, rest => .ok (0, 0, rest)

/-- The first of these register-field bytes that names no register. "The field is not masked" (R72, R105). -/
def firstBadIndex (fields : List Byte) : Option Byte :=
  fields.find? fun b => !decide (IsRegIndex b)

/-- Decode the instruction at the head of a byte sequence, with the bytes after it. The checks come in the order of
R209: unknown opcode, then missing operand bytes, then register indices. -/
def decode : List Byte → Except DecodeError (Instr × List Byte)
  | [] => .error (.missingByte 0)
  | opcode :: bytes =>
    match dispatch? opcode with
    | none => .error (.unknownOpcode opcode)
    | some row =>
      match takeOperands row.format.width bytes with
      | .error e => .error e
      | .ok (b1, b2, rest) =>
        match firstBadIndex (row.format.registerFields b1 b2) with
        | some b => .error (.registerIndexOutOfRange b)
        | none => .ok (row.build b1 b2, rest)

/-- The opcode byte of an instruction (R73). -/
def Instr.opcode : Instr → Byte
  | .ldi _ _ => 0x82
  | .prn _ => 0x47
  | .mul _ _ => 0xA2
  | .push _ => 0x45
  | .pop _ => 0x46
  | .hlt => 0x01
  | .call _ => 0x50
  | .ret => 0x11
  | .add _ _ => 0xA0
  | .cmp _ _ => 0xA7
  | .jeq _ => 0x55
  | .jne _ => 0x56
  | .jmp _ => 0x54

/-- The operand bytes of an instruction, b1 before b2 (R70, R71). -/
def Instr.operands : Instr → List Byte
  | .ldi a imm8 => [a, imm8]
  | .prn a => [a]
  | .mul u v => [u, v]
  | .push a => [a]
  | .pop a => [a]
  | .hlt => []
  | .call a => [a]
  | .ret => []
  | .add a b => [a, b]
  | .cmp a b => [a, b]
  | .jeq a => [a]
  | .jne a => [a]
  | .jmp a => [a]

/-- The bytes of an instruction at increasing addresses: opcode, b1, b2 (R54, R70). -/
def encode (i : Instr) : List Byte := i.opcode :: i.operands

/-- The three bytes that a table word of nbits bits stands for: byte k is bits 8k+7..8k, and every bit from nbits up is
0. -/
def tableBytes (nbits w : Nat) : List Byte :=
  let v := w % 2 ^ nbits
  [BitVec.ofNat 8 v, BitVec.ofNat 8 (v / 2 ^ 8), BitVec.ofNat 8 (v / 2 ^ 16)]

/-- The instruction the decoder reads from a word numbered as spec/opcode_table.json numbers it; none where the decoder
refuses. -/
def decodeTableWord (nbits w : Nat) : Option Instr :=
  match decode (tableBytes nbits w) with
  | .ok (i, _) => some i
  | .error _ => none

end Sys2Proof
end

