-- ==== Sys2Proof/Config.lean ====
section
/-! DEFINITION. The implementation parameters of R7. Every one has a value stated by the spec; there is no free value. -/

namespace Sys2Proof.Config

/-- MEM_SIZE: bytes of memory, addresses 0x00 to 0xFF (R7, R50). -/
abbrev memSize : Nat := 256

/-- SP_INDEX: the register the stack instructions use (R7, R23). -/
def spIndex : RegIdx := 7

/-- SP_RESET: the reset value of R7 (R7, R21). -/
def spReset : Byte := 0xF4

/-- What a memory byte holds that nothing has loaded or written: memory is zero-initialized (R63, R230). -/
abbrev memReset : Byte := 0x00

/-- FLAGS_IN_R4: false for this hardware, so FL is a register of its own (R7, R31). -/
def flagsInR4 : Bool := false

/-- The register that holds the flags when FLAGS_IN_R4 is true (R31). -/
def flagsAlias : RegIdx := 4

/-- FAULT_EXIT_STATUS: the exit status after a fault other than an unknown opcode, and after a load error (R7, R221). -/
def faultExitStatus : Nat := 1

end Sys2Proof.Config
end

