-- ==== Sys2Proof/Machine/State.lean ====
section
/-! DEFINITION. The machine's state (R44), the ways a step stops, and the state after reset (R230). -/

namespace Sys2Proof.Machine

/-- The engine's two run states (R38). -/
inductive RunState where
  | running
  | halted
  deriving DecidableEq, Repr

/-- The kind and the info of an engine fault (R39, R201). An engine fault is part of the machine: the instruction ends in
a next state that is HALTED and holds the record (R204). -/
inductive FaultCause where
  /-- The byte at pc is not in the dispatch table; the info is that byte (R202). -/
  | unknownOpcode (opcode : Byte)
  /-- An address outside 0..255 would be accessed; the info is the address (R203). -/
  | addressOutOfRange (address : Nat)
  /-- A register field holds 8..255; the info is the operand byte (R205). -/
  | registerIndexOutOfRange (operand : Byte)
  /-- Reserved: no step raises it; no info (R206). -/
  | unsupportedAluOp
  deriving DecidableEq, Repr

/-- The fault record's triple (kind, pc, info): cause is the kind with its info, pc the address of the faulting
instruction (R39). -/
structure FaultRecord where
  cause : FaultCause
  pc    : PC
  deriving DecidableEq, Repr

/-- Memory: the cells that hold another byte than Config.memReset, by strictly rising address (Memory.wf). -/
abbrev Memory := List Host.Cell

/-- The complete machine state, the tuple of R44, and the parameter FLAGS_IN_R4 of R31. -/
structure State where
  /-- Memory, 256 bytes (R50). -/
  mem : Memory
  /-- The general registers R0 to R7 (R20). -/
  x : Vector Byte 8
  /-- FL, the flags register (R30). Not used when flagsInR4 is true: FL is then x[4] (R44). -/
  fl : Byte
  /-- The program counter (R35, R36). -/
  pc : PC
  /-- RUNNING or HALTED (R38). -/
  run : RunState
  /-- The fault record, none until a fault halts the engine (R39). -/
  fault : Option FaultRecord
  /-- The bytes emitted by PRN, oldest first (R40). -/
  out : List Byte
  /-- DESIGN CHOICE (log entry 3), safe: the parameter FLAGS_IN_R4 held as a constant of the state, so that one step covers
  both of its settings. No instruction reads it as data or writes it. -/
  flagsInR4 : Bool
  deriving DecidableEq, Repr

/-- Why a step gives no next state. -/
inductive Fault where
  /-- Raised by step alone, in the HALTED run state: "A HALTED engine has no step" (R100). DEDUCED (log entry 2), safe. -/
  | engineHalted
  deriving DecidableEq, Repr

/-- Why a step is refused. -/
inductive Refusal where
  /-- An instruction with no meaning yet. Nothing raises it: every instruction has its meaning. Safe. -/
  | notModelled (mnemonic : String)
  deriving DecidableEq, Repr

/-- The outcome of an instruction or a step. -/
abbrev Result := Host.Outcome State Fault Refusal

/-- The state right after reset, before the load; "No reset value is left unspecified" (R230, R21, R63). -/
def State.reset : State where
  mem := []
  x := #v[0x00, 0x00, 0x00, 0x00, 0x00, 0x00, 0x00, Config.spReset]
  fl := 0x00
  pc := 0
  run := .running
  fault := none
  out := []
  flagsInR4 := Config.flagsInR4

end Sys2Proof.Machine
end

