-- ==== Sys2Proof/Machine/Ops.lean ====
section
/-! DEFINITION. The named operations over memory, registers, pc, output and run state; raising a fault; fetching. -/

namespace Sys2Proof.Machine

/-! ## Memory (R50, R51, R63) -/

/-- The byte an address holds in a list of cells; Config.memReset where no cell lists the address. -/
def readCells (a : Nat) : List Host.Cell → Byte
  | [] => Config.memReset
  | (b, w) :: rest => if a = b then w else readCells a rest

/-- MemRead(addr, 1) (R51). Its address is a byte, so it is always inside memory (R52). -/
def Memory.read (m : Memory) (a : Byte) : Byte := readCells a.toNat m

/-- Replace the byte at an address, keeping the canonical form: a cell that would hold Config.memReset is not listed. -/
def writeCells (a : Nat) (v : Byte) : List Host.Cell → List Host.Cell
  | [] => if v = Config.memReset then [] else [(a, v)]
  | (b, w) :: rest =>
    if a < b then
      if v = Config.memReset then (b, w) :: rest else (a, v) :: (b, w) :: rest
    else if a = b then
      if v = Config.memReset then rest else (a, v) :: rest
    else (b, w) :: writeCells a v rest

/-- MemWrite(addr, 1, v) (R51). Its address is a byte, so it is always inside memory (R52). -/
def Memory.write (m : Memory) (a v : Byte) : Memory := writeCells a.toNat v m

/-- The canonical form from address lo up: addresses strictly rising, all inside memory, no cell that holds
Config.memReset. -/
def wfCellsFrom (lo : Nat) : List Host.Cell → Bool
  | [] => true
  | (b, w) :: rest =>
    decide (lo ≤ b) && decide (b < Config.memSize) && decide (w ≠ Config.memReset) && wfCellsFrom (b + 1) rest

/-- The canonical form of memory: equal memories are equal lists. -/
def Memory.wf (m : Memory) : Bool := wfCellsFrom 0 m

/-- Write bytes at increasing addresses from addr; bytes past the last address are dropped. Used where the host places
bytes in memory (R241), never by an instruction. -/
def Memory.place (m : Memory) (addr : Nat) : List Byte → Memory
  | [] => m
  | b :: rest =>
    if addr < Config.memSize then Memory.place (Memory.write m (BitVec.ofNat 8 addr) b) (addr + 1) rest else m

/-- Up to n bytes at increasing addresses from addr, as many as lie inside memory. -/
def Memory.bytesFrom (m : Memory) (addr : Nat) : Nat → List Byte
  | 0 => []
  | n + 1 =>
    if addr < Config.memSize then Memory.read m (BitVec.ofNat 8 addr) :: Memory.bytesFrom m (addr + 1) n else []

/-! ## Registers (R20 to R23) -/

/-- `x[i]`: read a general register (R9). -/
def State.reg (s : State) (i : RegIdx) : Byte := s.x[i]

/-- `x[i] <- v`: write a general register (R9, R22). -/
def State.setReg (s : State) (i : RegIdx) (v : Byte) : State := { s with x := s.x.set i v }

/-- `SP` is shorthand for `x[7]` (R9). -/
def State.sp (s : State) : Byte := s.reg Config.spIndex

/-- `x[7] <- (x[7] - 1) mod 256` (R121, R161). -/
def State.decSp (s : State) : State := s.setReg Config.spIndex (s.sp - 1)

/-- `x[7] <- (x[7] + 1) mod 256` (R122, R162). -/
def State.incSp (s : State) : State := s.setReg Config.spIndex (s.sp + 1)

/-! ## Stack memory (R53) -/

/-- `MemRead(x[7], 1)`: the byte on top of the stack. -/
def State.top (s : State) : Byte := Memory.read s.mem s.sp

/-- `MemWrite(x[7], 1, v)`. -/
def State.setTop (s : State) (v : Byte) : State := { s with mem := Memory.write s.mem s.sp v }

/-! ## Program counter, output, run state -/

/-- `pc <- pc + w` (R35). -/
def State.advance (s : State) (w : Nat) : State := { s with pc := s.pc + BitVec.ofNat 9 w }

/-- `pc <- target`, a byte: every transfer of control writes a value in 0..255 (R36, R160). -/
def State.jump (s : State) (target : Byte) : State := { s with pc := target.setWidth 9 }

/-- `emit(v)`: append a byte to the output log (R180). -/
def State.emit (s : State) (v : Byte) : State := { s with out := s.out ++ [v] }

/-- `halt()`: HALTED without a fault (R9). -/
def State.halt (s : State) : State := { s with run := .halted }

/-! ## Faults -/

/-- `raise Fault(kind, info)`: the whole effect of a fault. The engine halts and records the cause with the pc of the
faulting instruction, which has written nothing (R204). There is no trap entry and no trap return (R211, R212). -/
def State.raise (s : State) (cause : FaultCause) : State :=
  { s with run := .halted, fault := some ⟨cause, s.pc⟩ }

/-- The fault kinds' codes (R201). -/
def FaultCause.code : FaultCause → Nat
  | .unknownOpcode _ => 1
  | .addressOutOfRange _ => 2
  | .registerIndexOutOfRange _ => 3
  | .unsupportedAluOp => 4

/-- The info a fault record holds (R201). -/
def FaultCause.info : FaultCause → Option Nat
  | .unknownOpcode opcode => some opcode.toNat
  | .addressOutOfRange address => some address
  | .registerIndexOutOfRange operand => some operand.toNat
  | .unsupportedAluOp => none

/-! ## Fetch -/

/-- The memory byte at an address, none beyond 0xFF (R52, R222). -/
def State.byteAt? (s : State) (addr : Nat) : Option Byte :=
  if addr < Config.memSize then some (Memory.read s.mem (BitVec.ofNat 8 addr)) else none

/-- The bytes at pc, pc + 1 and pc + 2, as many as lie inside memory: what opcode and operand fetch can read (R101, R104).
Reads have no side effects (R51), so a byte that the width of the instruction does not reach changes nothing. -/
def State.fetchWindow (s : State) : List Byte := Memory.bytesFrom s.mem s.pc.toNat 3

/-- The fault that a failed decode at pc raises: a missing byte k is an access to address pc + k (R101, R102, R104, R105). -/
def decodeFault (pc : PC) : DecodeError → FaultCause
  | .missingByte k => .addressOutOfRange (pc.toNat + k)
  | .unknownOpcode opcode => .unknownOpcode opcode
  | .registerIndexOutOfRange operand => .registerIndexOutOfRange operand

end Sys2Proof.Machine
end

