-- ==== Sys2Proof/Machine/Flags.lean ====
section
/-! DEFINITION. The flags register FL and the ALU: unsigned 8-bit multiplication, addition and three-way comparison
(R30, R31, R140). -/

namespace Sys2Proof.Machine

/-- FL: the dedicated register, or x[4] when FLAGS_IN_R4 is true (R9, R31). -/
def State.flags (s : State) : Byte :=
  if s.flagsInR4 then s.reg Config.flagsAlias else s.fl

/-- `FL <- v` (R9, R31). -/
def State.setFlags (s : State) (v : Byte) : State :=
  if s.flagsInR4 then s.setReg Config.flagsAlias v else { s with fl := v }

/-- FL with only LT, bit 2, set (R143). -/
def flLT : Byte := 0b00000100

/-- FL with only GT, bit 1, set (R143). -/
def flGT : Byte := 0b00000010

/-- FL with only EQ, bit 0, set (R143). -/
def flEQ : Byte := 0b00000001

/-- FL[0], the only flag an instruction reads (R30). -/
def State.eqBit (s : State) : Bool := s.flags.getLsbD 0

/-- Unsigned three-way comparison, in the source's if/elif order; the whole byte is written (R143). -/
def aluCompare (a b : Byte) : Byte :=
  if a.toNat < b.toNat then flLT else if a.toNat > b.toNat then flGT else flEQ

/-- The sum mod 256; no flag is computed (R140, R142). -/
def aluAdd (a b : Byte) : Byte := BitVec.ofNat 8 (a.toNat + b.toNat)

/-- The product mod 256; the high byte is lost and no flag is computed (R140, R141). -/
def aluMul (a b : Byte) : Byte := BitVec.ofNat 8 (a.toNat * b.toNat)

end Sys2Proof.Machine
end

