-- ==== Sys2Proof/Machine/Operands.lean ====
section
/-! DEFINITION. Operand forms. The only operand that needs resolving is the register-index byte (R72); an immediate is
used as it stands. -/

namespace Sys2Proof.Machine

/-- The byte of a register-index field that names register r (R72). -/
def regByte (r : RegIdx) : Byte := BitVec.ofNat 8 r.val

/-- The register a register-index byte names: the whole byte as an unsigned index, not masked (R72). -/
def regIndex? (b : Byte) : Option RegIdx :=
  if h : b.toNat < 8 then some ⟨b.toNat, h⟩ else none

/-- Run an instruction on the register that an operand byte names, or raise RegisterIndexOutOfRange with that byte
(R105). The decoder has made the same check, so a step never takes the second way; a meaning is still total on
every Instr (log entry 10). -/
def withReg (b : Byte) (s : State) (k : RegIdx → Result) : Result :=
  match regIndex? b with
  | some r => k r
  | none => .next (s.raise (.registerIndexOutOfRange b))

end Sys2Proof.Machine
end

