-- ==== Sys2Proof/Machine/Alu.lean ====
section
/-! DEFINITION. The execute phase of MUL, ADD and CMP (42_alu.md). -/

namespace Sys2Proof.Machine

/-- MUL (R141): `x[0] <- (x[0] * x[1]) mod 256; pc <- pc + 3`. Its operand bytes are ignored and not checked. -/
def execMul (_u _v : Byte) (s : State) : Result :=
  .next ((s.setReg 0 (aluMul (s.reg 0) (s.reg 1))).advance 3)

/-- ADD (R142): `x[0] <- (x[a] + x[b]) mod 256; pc <- pc + 3`. Both operands are read before the write. -/
def execAdd (a b : Byte) (s : State) : Result :=
  withReg a s fun ra => withReg b s fun rb =>
    .next ((s.setReg 0 (aluAdd (s.reg ra) (s.reg rb))).advance 3)

/-- CMP (R143): FL gets LT, GT or EQ alone; `pc <- pc + 3`. -/
def execCmp (a b : Byte) (s : State) : Result :=
  withReg a s fun ra => withReg b s fun rb =>
    .next ((s.setFlags (aluCompare (s.reg ra) (s.reg rb))).advance 3)

end Sys2Proof.Machine
end

