-- ==== Sys2Proof/Machine/ControlTransfer.lean ====
section
/-! DEFINITION. The execute phase of CALL, RET, JEQ, JNE and JMP (43_control_transfer.md). -/

namespace Sys2Proof.Machine

/-- The return address of a CALL, pc + 2 as an unbounded integer (R161). -/
def State.returnAddress (s : State) : Nat := s.pc.toNat + 2

/-- CALL (R161): a return address above 255 faults before any write; otherwise push it and jump to x[a], read after the
push. -/
def execCall (a : Byte) (s : State) : Result :=
  withReg a s fun r =>
    if s.returnAddress < Config.memSize then
      let s1 := s.decSp.setTop (BitVec.ofNat 8 s.returnAddress)
      .next (s1.jump (s1.reg r))
    else .next (s.raise (.addressOutOfRange s.returnAddress))

/-- RET (R162): pop the byte on top of the stack into pc. -/
def execRet (s : State) : Result :=
  .next (s.incSp.jump s.top)

/-- Jump to x[r] if the condition holds, else go past a two-byte instruction (R163, R164). -/
def jumpIf (cond : Bool) (r : RegIdx) (s : State) : State :=
  if cond then s.jump (s.reg r) else s.advance 2

/-- JEQ (R163): jump if FL[0] = 1. -/
def execJeq (a : Byte) (s : State) : Result :=
  withReg a s fun r => .next (jumpIf s.eqBit r s)

/-- JNE (R164): jump if FL[0] = 0. -/
def execJne (a : Byte) (s : State) : Result :=
  withReg a s fun r => .next (jumpIf (!s.eqBit) r s)

/-- JMP (R165): `pc <- x[a]`. -/
def execJmp (a : Byte) (s : State) : Result :=
  withReg a s fun r => .next (s.jump (s.reg r))

end Sys2Proof.Machine
end

