-- ==== Sys2Proof/Machine/DataMovement.lean ====
section
/-! DEFINITION. The execute phase of LDI, PUSH and POP (41_data_movement.md). -/

namespace Sys2Proof.Machine

/-- LDI (R120): `x[a] <- imm8; pc <- pc + 3`. -/
def execLdi (a imm8 : Byte) (s : State) : Result :=
  withReg a s fun r => .next ((s.setReg r imm8).advance 3)

/-- PUSH (R121): x[a] is read after the decrement of x[7]. -/
def execPush (a : Byte) (s : State) : Result :=
  withReg a s fun r =>
    let s1 := s.decSp
    .next ((s1.setTop (s1.reg r)).advance 2)

/-- POP (R122): x[7] is read for the increment after the write to x[a]. -/
def execPop (a : Byte) (s : State) : Result :=
  withReg a s fun r => .next ((s.setReg r s.top).incSp.advance 2)

end Sys2Proof.Machine
end

