-- ==== Sys2Proof/Machine/SystemIo.lean ====
section
/-! DEFINITION. The execute phase of PRN and HLT (44_system_io.md). -/

namespace Sys2Proof.Machine

/-- PRN (R181): `emit(x[a]); pc <- pc + 2`. -/
def execPrn (a : Byte) (s : State) : Result :=
  withReg a s fun r => .next ((s.emit (s.reg r)).advance 2)

/-- HLT (R182): `halt(); pc <- pc + 1`. -/
def execHlt (s : State) : Result :=
  .next (s.halt.advance 1)

end Sys2Proof.Machine
end

