-- ==== Sys2Proof/Machine/Step.lean ====
section
/-! DEFINITION. One step of the engine: fetch, decode, operand fetch, register-index check, execute (R100 to R109). -/

namespace Sys2Proof.Machine

/-- One step. A HALTED engine has none (R100); a fetch or decode that fails is a fault, which halts the engine (R204). -/
def step (s : State) : Host.Outcome State Fault Refusal :=
  match s.run with
  | .halted => .fault .engineHalted
  | .running =>
    match decode s.fetchWindow with
    | .error e => .next (s.raise (decodeFault s.pc e))
    | .ok (i, _) => exec i s

/-- The state with the bytes of a table word placed at pc, where the next step fetches: the host's load (R241) of one
instruction (log entry 7). -/
def State.withFetchWord (s : State) (nbits w : Nat) : State :=
  { s with mem := Memory.place s.mem s.pc.toNat (tableBytes nbits w) }

end Sys2Proof.Machine
end

