-- ==== Sys2Proof/Machine/Loader.lean ====
section
/-! DEFINITION. The host's loader: the program image format, load errors, and the boot order (R240 to R243). -/

namespace Sys2Proof.Machine

/-- Why a load fails; "no partial-load recovery is specified", and the engine never runs (R242). -/
inductive LoadError where
  /-- A line holds something other than a base-2 literal: "non-binary token" (R242). -/
  | malformedLine
  /-- A literal's value is above 255 (R240, R242). -/
  | literalTooLarge
  /-- The image has more than 256 bytes (R242). -/
  | imageTooLong
  deriving DecidableEq, Repr

/-- White space at the ends of a line: space, tab, carriage return. DESIGN CHOICE (log entry 13), unsafe. -/
def isBlank (c : Char) : Bool := c == ' ' || c == '\t' || c == '\r'

/-- Drop white space at both ends (R240 point 2). -/
def trim (cs : List Char) : List Char :=
  ((cs.dropWhile isBlank).reverse.dropWhile isBlank).reverse

/-- Drop everything from the first `#` to the end of the line (R240 point 1). -/
def stripComment (cs : List Char) : List Char := cs.takeWhile fun c => c != '#'

/-- The lines of a text, in order, without their line feeds. -/
def splitLines : List Char → List (List Char)
  | [] => [[]]
  | c :: cs =>
    if c == '\n' then [] :: splitLines cs
    else
      match splitLines cs with
      | [] => [[c]]
      | l :: ls => (c :: l) :: ls

/-- The value of a string of `0` and `1` read in base 2, most significant digit first, after the digits already read;
none at any other character (R240 point 4). -/
def binaryValue (acc : Nat) : List Char → Option Nat
  | [] => some acc
  | c :: cs =>
    if c == '0' then binaryValue (2 * acc) cs
    else if c == '1' then binaryValue (2 * acc + 1) cs
    else none

/-- The byte of one line: none for a line with nothing on it, which consumes no address (R240 points 1 to 4). -/
def parseLine (line : List Char) : Except LoadError (Option Byte) :=
  match trim (stripComment line) with
  | [] => .ok none
  | c :: cs =>
    match binaryValue 0 (c :: cs) with
    | none => .error .malformedLine
    | some v => if v ≤ 255 then .ok (some (BitVec.ofNat 8 v)) else .error .literalTooLarge

/-- The literal values of the lines, in order; the first line that is no literal is the load error. -/
def parseLines : List (List Char) → Except LoadError (List Byte)
  | [] => .ok []
  | l :: ls =>
    match parseLine l with
    | .error e => .error e
    | .ok none => parseLines ls
    | .ok (some b) =>
      match parseLines ls with
      | .error e => .error e
      | .ok bs => .ok (b :: bs)

/-- The program image a text file stands for: "the sequence of literal values, in file order" (R240). -/
def parseImage (text : List Char) : Except LoadError (List Byte) := parseLines (splitLines text)

/-- Load: image byte k goes to mem[k]; an image of more than 256 bytes is a load error (R241, R242). -/
def State.load (s : State) (image : List Byte) : Except LoadError State :=
  if image.length ≤ Config.memSize then .ok { s with mem := Memory.place s.mem 0 image }
  else .error .imageTooLong

/-- Boot: reset, then load the image file; "A failed load stops the sequence" (R243). The state is the one the run starts
from. -/
def boot (text : List Char) : Except LoadError State :=
  match parseImage text with
  | .error e => .error e
  | .ok image => State.reset.load image

end Sys2Proof.Machine
end

