-- ==== Sys2Proof/Machine/HostView.lean ====
section
/-! DEFINITION. What the host reads from the CORE: status, exit status, rendered output and the trace (R180, R220 to
R222). None of it is part of a step. -/

namespace Sys2Proof.Machine

/-- The status the CORE reports to the host (R220). -/
structure Status where
  run   : RunState
  fault : Option FaultRecord
  deriving DecidableEq, Repr

/-- Read the status (R220). -/
def State.status (s : State) : Status := ⟨s.run, s.fault⟩

/-- The process exit status of an ended run; none while the engine is RUNNING (R221). -/
def Status.exitStatus (st : Status) : Option Nat :=
  match st.run, st.fault with
  | .running, _ => none
  | .halted, none => some 0
  | .halted, some ⟨.unknownOpcode _, _⟩ => some 1
  | .halted, some ⟨_, _⟩ => some Config.faultExitStatus

/-- The process exit status when the boot ends in a load error (R221, R242); none when the load succeeds. -/
def bootExitStatus : Except LoadError State → Option Nat
  | .error _ => some Config.faultExitStatus
  | .ok _ => none

/-- The digit character of a number below 16, in upper case. -/
def digitChar (n : Nat) : Char :=
  if n < 10 then Char.ofNat (48 + n) else Char.ofNat (55 + n)

/-- The shortest decimal numeral of a byte: no sign, padding or leading zeros. PRESUMED by the spec itself (R180 marks it
as general knowledge, G1; log entry 21). -/
def decimal (v : Byte) : List Char :=
  let n := v.toNat
  if n < 10 then [digitChar n]
  else if n < 100 then [digitChar (n / 10), digitChar (n % 10)]
  else [digitChar (n / 100), digitChar (n / 10 % 10), digitChar (n % 10)]

/-- What the host writes to standard output for an output log: each byte in decimal and a newline (R180). -/
def renderOutput (out : List Byte) : List Char :=
  out.flatMap fun v => decimal v ++ ['\n']

/-- What the trace facility shows of a state: pc, the next three memory bytes, a byte beyond 0xFF being absent, and the
eight registers (R222). -/
structure TraceView where
  pc    : PC
  bytes : List (Option Byte)
  regs  : List Byte
  deriving DecidableEq, Repr

/-- The trace of a state; it "must not mutate engine state" (R222). -/
def State.trace (s : State) : TraceView where
  pc := s.pc
  bytes := [s.byteAt? s.pc.toNat, s.byteAt? (s.pc.toNat + 1), s.byteAt? (s.pc.toNat + 2)]
  regs := s.x.toList

/-- A byte in "two-digit hexadecimal" (R222). -/
def hexByte (v : Byte) : List Char := [digitChar (v.toNat / 16), digitChar (v.toNat % 16)]

end Sys2Proof.Machine
end

