-- ==== Sys2Proof/Machine/Assembler.lean ====
section
/-! DEFINITION. The assembly text of R78, read and written: a mnemonic, then operands separated by commas. There are no
pseudo-instructions and no directives (R79). -/

namespace Sys2Proof.Machine

/-- The operands an instruction's text may have. -/
inductive Operand where
  /-- A register, R0 to R7, or SP for R7. -/
  | reg (r : RegIdx)
  /-- An immediate. -/
  | imm (v : Byte)
  deriving DecidableEq, Repr

/-- The value of a digit below the base; upper and lower case letters are accepted in base 16. -/
def digitValue (base : Nat) (c : Char) : Option Nat :=
  let n := c.toNat
  let v := if 48 ≤ n ∧ n ≤ 57 then n - 48 else if 65 ≤ n ∧ n ≤ 70 then n - 55 else if 97 ≤ n ∧ n ≤ 102 then n - 87 else 99
  if v < base then some v else none

/-- The value of a string of digits, after those already read. -/
def numeralValue (base acc : Nat) : List Char → Option Nat
  | [] => some acc
  | c :: cs =>
    match digitValue base c with
    | none => none
    | some d => numeralValue base (base * acc + d) cs

/-- An immediate: decimal, or hex with `0x`, or binary with `0b` (R78); a byte, so at most 255 (R72). -/
def parseImm (cs : List Char) : Option Byte :=
  let value :=
    match cs with
    | [] => none
    | '0' :: 'x' :: c :: rest => numeralValue 16 0 (c :: rest)
    | '0' :: 'b' :: c :: rest => numeralValue 2 0 (c :: rest)
    | c :: rest => numeralValue 10 0 (c :: rest)
  match value with
  | some v => if v ≤ 255 then some (BitVec.ofNat 8 v) else none
  | none => none

/-- One operand: `R0` to `R7`, `SP` for `R7`, or an immediate (R78). -/
def parseOperand (cs : List Char) : Option Operand :=
  match cs with
  | ['S', 'P'] => some (.reg Config.spIndex)
  | ['R', c] =>
    match digitValue 8 c with
    | some d => some (.reg (Fin.ofNat 8 d))
    | none => none
  | _ =>
    match parseImm cs with
    | some v => some (.imm v)
    | none => none

/-- The parts of an operand list between commas. -/
def splitCommas : List Char → List (List Char)
  | [] => [[]]
  | c :: cs =>
    if c == ',' then [] :: splitCommas cs
    else
      match splitCommas cs with
      | [] => [[c]]
      | l :: ls => (c :: l) :: ls

/-- The operands of an instruction's text; none of them when nothing follows the mnemonic. -/
def parseOperands (cs : List Char) : Option (List Operand) :=
  match trim cs with
  | [] => some []
  | c :: rest => (splitCommas (c :: rest)).mapM fun part => parseOperand (trim part)

/-- The instruction a mnemonic and its operands spell, by the formats of R78. Bare `MUL` stands for `0xA2 0x00 0x01`;
R141 also spells MUL's ignored bytes as registers. -/
def instrOf (mnemonic : List Char) (operands : List Operand) : Option Instr :=
  match operands with
  | [] =>
    if mnemonic = ['H', 'L', 'T'] then some .hlt
    else if mnemonic = ['R', 'E', 'T'] then some .ret
    else if mnemonic = ['M', 'U', 'L'] then some (.mul 0x00 0x01)
    else none
  | [.reg a] =>
    if mnemonic = ['P', 'R', 'N'] then some (.prn (regByte a))
    else if mnemonic = ['P', 'U', 'S', 'H'] then some (.push (regByte a))
    else if mnemonic = ['P', 'O', 'P'] then some (.pop (regByte a))
    else if mnemonic = ['C', 'A', 'L', 'L'] then some (.call (regByte a))
    else if mnemonic = ['J', 'E', 'Q'] then some (.jeq (regByte a))
    else if mnemonic = ['J', 'N', 'E'] then some (.jne (regByte a))
    else if mnemonic = ['J', 'M', 'P'] then some (.jmp (regByte a))
    else none
  | [.reg a, .imm v] => if mnemonic = ['L', 'D', 'I'] then some (.ldi (regByte a) v) else none
  | [.reg a, .reg b] =>
    if mnemonic = ['A', 'D', 'D'] then some (.add (regByte a) (regByte b))
    else if mnemonic = ['C', 'M', 'P'] then some (.cmp (regByte a) (regByte b))
    else if mnemonic = ['M', 'U', 'L'] then some (.mul (regByte a) (regByte b))
    else none
  | [.imm u, .imm v] => if mnemonic = ['M', 'U', 'L'] then some (.mul u v) else none
  | _ => none

/-- The instruction one line of assembly text stands for (R78). -/
def parseAsm (line : List Char) : Option Instr :=
  let text := trim line
  match parseOperands (text.dropWhile fun c => !isBlank c) with
  | some operands => instrOf (text.takeWhile fun c => !isBlank c) operands
  | none => none

/-- The bytes one line of assembly text assembles to (R78). -/
def assemble (line : List Char) : Option (List Byte) := (parseAsm line).map encode

/-- The assembly text of an instruction (R78): registers as `R<n>`, immediates in decimal. -/
def asmText : Instr → List Char
  | .ldi a imm8 => ['L', 'D', 'I', ' ', 'R'] ++ decimal a ++ [','] ++ decimal imm8
  | .prn a => ['P', 'R', 'N', ' ', 'R'] ++ decimal a
  | .mul u v => ['M', 'U', 'L', ' '] ++ decimal u ++ [','] ++ decimal v
  | .push a => ['P', 'U', 'S', 'H', ' ', 'R'] ++ decimal a
  | .pop a => ['P', 'O', 'P', ' ', 'R'] ++ decimal a
  | .hlt => ['H', 'L', 'T']
  | .call a => ['C', 'A', 'L', 'L', ' ', 'R'] ++ decimal a
  | .ret => ['R', 'E', 'T']
  | .add a b => ['A', 'D', 'D', ' ', 'R'] ++ decimal a ++ [',', 'R'] ++ decimal b
  | .cmp a b => ['C', 'M', 'P', ' ', 'R'] ++ decimal a ++ [',', 'R'] ++ decimal b
  | .jeq a => ['J', 'E', 'Q', ' ', 'R'] ++ decimal a
  | .jne a => ['J', 'N', 'E', ' ', 'R'] ++ decimal a
  | .jmp a => ['J', 'M', 'P', ' ', 'R'] ++ decimal a

end Sys2Proof.Machine
end

