-- ==== Sys2Proof/Machine/PseudoStep.lean ====
section
/-! DEFINITION. R109's pseudocode of the complete step, line by line, over a dispatch table in R109's own terms (width,
field1_is_reg, field2_is_reg). step is the machine; this is the spec's text to hold it against. -/

namespace Sys2Proof.Machine

/-- DISPATCH[opcode] as R109 uses it. -/
structure PseudoRow where
  opcode      : Byte
  width       : Nat
  field1IsReg : Bool
  field2IsReg : Bool
  instr       : Byte → Byte → Instr

/-- DISPATCH: field1_is_reg for LDI, PRN, PUSH, POP, CALL, JEQ, JNE, JMP, ADD and CMP, field2_is_reg for ADD and CMP only
(R73, R109). -/
def pseudoDispatch (opcode : Byte) : Option PseudoRow :=
  if opcode = 0b10000010 then some ⟨opcode, 3, true, false, fun b1 b2 => .ldi b1 b2⟩
  else if opcode = 0b01000111 then some ⟨opcode, 2, true, false, fun b1 _ => .prn b1⟩
  else if opcode = 0b10100010 then some ⟨opcode, 3, false, false, fun b1 b2 => .mul b1 b2⟩
  else if opcode = 0b01000101 then some ⟨opcode, 2, true, false, fun b1 _ => .push b1⟩
  else if opcode = 0b01000110 then some ⟨opcode, 2, true, false, fun b1 _ => .pop b1⟩
  else if opcode = 0b00000001 then some ⟨opcode, 1, false, false, fun _ _ => .hlt⟩
  else if opcode = 0b01010000 then some ⟨opcode, 2, true, false, fun b1 _ => .call b1⟩
  else if opcode = 0b00010001 then some ⟨opcode, 1, false, false, fun _ _ => .ret⟩
  else if opcode = 0b10100000 then some ⟨opcode, 3, true, true, fun b1 b2 => .add b1 b2⟩
  else if opcode = 0b10100111 then some ⟨opcode, 3, true, true, fun b1 b2 => .cmp b1 b2⟩
  else if opcode = 0b01010101 then some ⟨opcode, 2, true, false, fun b1 _ => .jeq b1⟩
  else if opcode = 0b01010110 then some ⟨opcode, 2, true, false, fun b1 _ => .jne b1⟩
  else if opcode = 0b01010100 then some ⟨opcode, 2, true, false, fun b1 _ => .jmp b1⟩
  else none

/-- step(s) of R109, each line a line of the pseudocode. An operand byte that the width does not reach ("none" there) is
0 here and no row uses it. -/
def pseudoStep (s : State) : Result :=
  let memRead (addr : Nat) : Byte := Memory.read s.mem (BitVec.ofNat 8 addr)
  let pc := s.pc.toNat
  if s.run = .halted then .fault .engineHalted
  else if pc > 255 then .next (s.raise (.addressOutOfRange pc))
  else
    match pseudoDispatch (memRead pc) with
    | none => .next (s.raise (.unknownOpcode (memRead pc)))
    | some row =>
      if row.width ≥ 2 ∧ pc + 1 > 255 then .next (s.raise (.addressOutOfRange (pc + 1)))
      else if row.width ≥ 3 ∧ pc + 2 > 255 then .next (s.raise (.addressOutOfRange (pc + 2)))
      else
        let b1 := if row.width ≥ 2 then memRead (pc + 1) else 0
        let b2 := if row.width ≥ 3 then memRead (pc + 2) else 0
        if row.field1IsReg ∧ b1.toNat > 7 then .next (s.raise (.registerIndexOutOfRange b1))
        else if row.field2IsReg ∧ b2.toNat > 7 then .next (s.raise (.registerIndexOutOfRange b2))
        else exec (row.instr b1 b2) s

end Sys2Proof.Machine
end

