-- ==== Sys2Proof/Safety.lean ====
section
/-! DEFINITION. The terms claims are stated in: what stands at pc, what a state keeps, the faults of a step, runs and
their ends, and the invariant of the machine. -/

namespace Sys2Proof.Machine

/-! ## What a next state keeps -/

/-- Every register but those listed keeps its value. -/
def State.RegsKeptExcept (s t : State) (changed : List RegIdx) : Prop :=
  ∀ q : RegIdx, q ∉ changed → t.reg q = s.reg q

/-- Every byte of memory reads as before. -/
def State.MemKept (s t : State) : Prop :=
  ∀ a : Byte, Memory.read t.mem a = Memory.read s.mem a

/-- Every byte of memory but the one at the address given reads as before. -/
def State.MemKeptExcept (s t : State) (stored : Byte) : Prop :=
  ∀ a : Byte, a ≠ stored → Memory.read t.mem a = Memory.read s.mem a

/-- The dedicated FL, the run state, the fault record, the output log and the parameter keep their values. -/
def State.RestKept (s t : State) : Prop :=
  t.fl = s.fl ∧ t.run = s.run ∧ t.fault = s.fault ∧ t.out = s.out ∧ t.flagsInR4 = s.flagsInR4

/-! ## What stands at pc, and what the step makes of it -/

/-- The bytes given stand in memory at pc, pc + 1, … . -/
def State.BytesAtPc (s : State) (bytes : List Byte) : Prop :=
  ∀ (k : Nat) (b : Byte), bytes[k]? = some b → s.byteAt? (s.pc.toNat + k) = some b

/-- A RUNNING engine with these bytes at pc runs the instruction. -/
def StepRuns (bytes : List Byte) (i : Instr) : Prop :=
  ∀ s : State, s.run = .running → s.BytesAtPc bytes → step s = exec i s

/-- An instruction of this opcode and width whose operand byte k lies at 256, the first address outside memory, raises
AddressOutOfRange(pc + k) (R104). -/
def OperandFetchFaults (opcode : Byte) (width : Nat) : Prop :=
  ∀ (s : State) (k : Nat), s.run = .running → s.byteAt? s.pc.toNat = some opcode →
    0 < k → k < width → s.pc.toNat + k = 256 →
    step s = .next (s.raise (.addressOutOfRange (s.pc.toNat + k)))

/-- An instruction of this opcode and width whose first operand byte is above 7 raises RegisterIndexOutOfRange(b1), whatever
its second operand byte holds (R105). -/
def FirstFieldChecked (opcode : Byte) (width : Nat) : Prop :=
  ∀ (s : State) (bytes : List Byte) (b1 : Byte), s.run = .running → s.BytesAtPc bytes → bytes.length = width →
    bytes[0]? = some opcode → bytes[1]? = some b1 → 7 < b1.toNat →
    step s = .next (s.raise (.registerIndexOutOfRange b1))

/-- A three-byte instruction of this opcode whose first operand byte is legal and second above 7 raises
RegisterIndexOutOfRange(b2) (R105). -/
def SecondFieldChecked (opcode : Byte) : Prop :=
  ∀ (s : State) (b1 b2 : Byte), s.run = .running → s.BytesAtPc [opcode, b1, b2] → b1.toNat ≤ 7 → 7 < b2.toNat →
    step s = .next (s.raise (.registerIndexOutOfRange b2))

/-- The illegal opcodes, by the ranges R75 lists. -/
def IllegalOpcode (b : Byte) : Prop :=
  let n := b.toNat
  n = 0x00 ∨ (0x02 ≤ n ∧ n ≤ 0x10) ∨ (0x12 ≤ n ∧ n ≤ 0x44) ∨ (0x48 ≤ n ∧ n ≤ 0x4F) ∨ (0x51 ≤ n ∧ n ≤ 0x53) ∨
    (0x57 ≤ n ∧ n ≤ 0x81) ∨ (0x83 ≤ n ∧ n ≤ 0x9F) ∨ n = 0xA1 ∨ (0xA3 ≤ n ∧ n ≤ 0xA6) ∨ (0xA8 ≤ n ∧ n ≤ 0xFF)

/-! ## Image files -/

/-- A byte as "an 8-digit binary literal", most significant bit first (R240). -/
def binaryLiteral (b : Byte) : List Char :=
  (List.range 8).map fun k => if b.getLsbD (7 - k) then '1' else '0'

/-- The number a numeral of `0` and `1` stands for, each `1` counting by its place (R240 point 4). -/
def binaryNumeral : List Char → Nat
  | [] => 0
  | c :: cs => (if c = '1' then 2 ^ cs.length else 0) + binaryNumeral cs

/-- A line of an image file: white space, the digits of a literal if there is one, white space, and a comment if there is
one (R240). A line without digits is a blank or a comment line. -/
structure ImageLine where
  before  : List Char
  digits  : List Char
  after   : List Char
  comment : Option (List Char)
  deriving DecidableEq, Repr

/-- The characters of the line, without a line feed; the comment stands after its `#`. -/
def ImageLine.text (l : ImageLine) : List Char :=
  l.before ++ l.digits ++ l.after ++
    match l.comment with
    | none => []
    | some c => '#' :: c

/-- A line the loader accepts: the white space is the model's (log entry 13), the digits are `0` and `1` with a value of at
most 255 (D15), and the comment ends with the line. -/
structure ImageLine.Ok (l : ImageLine) : Prop where
  before_blank : ∀ c ∈ l.before, isBlank c = true
  digits_binary : ∀ c ∈ l.digits, c = '0' ∨ c = '1'
  digits_le : binaryNumeral l.digits ≤ 255
  after_blank : ∀ c ∈ l.after, isBlank c = true
  comment_in_line : ∀ c : List Char, l.comment = some c → '\n' ∉ c

/-- The byte of the line; a line without digits has none and consumes no address (R240). -/
def ImageLine.byte? (l : ImageLine) : Option Byte :=
  if l.digits = [] then none else some (BitVec.ofNat 8 (binaryNumeral l.digits))

/-! ## Runs (R110, R111) -/

/-- The engine takes zero or more steps from the first state to the second. -/
inductive Reaches : State → State → Prop where
  | refl (s : State) : Reaches s s
  | tail {s t u : State} : Reaches s t → step t = .next u → Reaches s u

/-- A run has ended when the run state is HALTED (R111). -/
def State.Ended (s : State) : Prop := s.run = .halted

/-- It ends cleanly when there is no fault record (R111). -/
def State.EndedCleanly (s : State) : Prop := s.run = .halted ∧ s.fault = none

/-- It ends with a fault when there is one (R111). -/
def State.EndedWithFault (s : State) : Prop := s.run = .halted ∧ s.fault ≠ none

/-- A run from a state is safe when no state it reaches has ended with a fault. -/
def State.RunsSafely (s : State) : Prop := ∀ t : State, Reaches s t → ¬ t.EndedWithFault

/-! ## The invariant -/

/-- A fault record a step can have left in this state (R39, R201, R204, R206): it names the pc the engine stands at and
the byte or address that was wrong there. The only address reported is 256, the first outside memory. -/
def State.RecordFits (s : State) (r : FaultRecord) : Prop :=
  r.pc = s.pc ∧
  match r.cause with
  | .unknownOpcode opcode => s.byteAt? s.pc.toNat = some opcode ∧ IllegalOpcode opcode
  | .addressOutOfRange address => address = 256
  | .registerIndexOutOfRange operand => 7 < operand.toNat
  | .unsupportedAluOp => False

/-- The invariant of the machine. -/
structure State.Inv (s : State) : Prop where
  /-- Memory is in its canonical form and inside 256 bytes (R50). -/
  mem_wf : Memory.wf s.mem = true
  /-- Only the pc values 0 to 256 occur (R36). -/
  pc_le : s.pc.toNat ≤ 256
  /-- With FLAGS_IN_R4 false, FL only ever holds 0x00, 0x01, 0x02 or 0x04 (R30). -/
  fl_legal : s.flagsInR4 = false → s.fl = 0x00 ∨ s.fl = 0x01 ∨ s.fl = 0x02 ∨ s.fl = 0x04
  /-- With FLAGS_IN_R4 true there is no dedicated FL: its place in the model stays 0 (R44). -/
  fl_absent : s.flagsInR4 = true → s.fl = 0x00
  /-- A fault halts the engine (R204). -/
  fault_halts : s.fault ≠ none → s.run = .halted
  /-- A fault record says what went wrong at pc (R201, R204). -/
  fault_fits : ∀ r : FaultRecord, s.fault = some r → s.RecordFits r

end Sys2Proof.Machine
end

