-- ==== Sys2Proof/Certificates/Slice0/Obligations.lean ====
section
/-! DEFINITION. The statements for the provers. A docstring that names a decision D<n> says that the clause is the spec's
own choice (92_eei_decisions.md), and one that names a log entry that it is the model's. -/

open Sys2Proof Sys2Proof.Machine

/-! ## Instructions: encoding, effect with its frame, faults -/

/-- LDI (R120), for every register and immediate, in both settings of FLAGS_IN_R4. -/
def Obligations.LdiLoadsImmediateAndAdvancesThree : Prop :=
  (∀ (r : RegIdx) (imm8 : Byte), StepRuns [0x82, regByte r, imm8] (.ldi (regByte r) imm8)) ∧
  (∀ (r : RegIdx) (imm8 : Byte) (s : State), ∃ t, exec (.ldi (regByte r) imm8) s = .next t ∧
    t.reg r = imm8 ∧ t.pc = s.pc + 3 ∧ s.RegsKeptExcept t [r] ∧ s.MemKept t ∧ s.RestKept t ∧
    (s.flagsInR4 = true → r = 4 → t.flags = imm8)) ∧
  OperandFetchFaults 0x82 3 ∧ FirstFieldChecked 0x82 3

/-- PUSH (R121), for every register and every value of x[7]: x[a] is read after the decrement, so PUSH R7 stores the
decremented SP (D7), and x[7] wraps mod 256 (D12). -/
def Obligations.PushStoresBelowStackPointer : Prop :=
  (∀ r : RegIdx, StepRuns [0x45, regByte r] (.push (regByte r))) ∧
  (∀ (r : RegIdx) (s : State), Memory.wf s.mem = true → ∃ t, exec (.push (regByte r)) s = .next t ∧
    t.sp = s.sp - 1 ∧ Memory.read t.mem (s.sp - 1) = (if r = 7 then s.sp - 1 else s.reg r) ∧ t.pc = s.pc + 2 ∧
    s.RegsKeptExcept t [7] ∧ s.MemKeptExcept t (s.sp - 1) ∧ s.RestKept t) ∧
  OperandFetchFaults 0x45 2 ∧ FirstFieldChecked 0x45 2

/-- POP (R122), for every register and every value of x[7]: POP R7 leaves the popped byte plus 1 in x[7] (D7), and x[7]
wraps mod 256 (D12). -/
def Obligations.PopLoadsTopOfStack : Prop :=
  (∀ r : RegIdx, StepRuns [0x46, regByte r] (.pop (regByte r))) ∧
  (∀ (r : RegIdx) (s : State), ∃ t, exec (.pop (regByte r)) s = .next t ∧
    (r ≠ 7 → t.reg r = Memory.read s.mem s.sp ∧ t.sp = s.sp + 1) ∧
    (r = 7 → t.sp = Memory.read s.mem s.sp + 1) ∧ t.pc = s.pc + 2 ∧
    s.RegsKeptExcept t [r, 7] ∧ s.MemKept t ∧ s.RestKept t ∧
    (s.flagsInR4 = true → r = 4 → t.flags = Memory.read s.mem s.sp)) ∧
  OperandFetchFaults 0x46 2 ∧ FirstFieldChecked 0x46 2

/-- MUL (R141), for every pair of operand bytes: they are fetched, ignored and not checked. -/
def Obligations.MulMultipliesR0ByR1 : Prop :=
  (∀ u v : Byte, StepRuns [0xA2, u, v] (.mul u v)) ∧
  (∀ (u v : Byte) (s : State), ∃ t, exec (.mul u v) s = .next t ∧
    (t.reg 0).toNat = (s.reg 0).toNat * (s.reg 1).toNat % 256 ∧ t.pc = s.pc + 3 ∧
    s.RegsKeptExcept t [0] ∧ s.MemKept t ∧ s.RestKept t) ∧
  OperandFetchFaults 0xA2 3

/-- ADD (R142), for every pair of registers: the sum goes to R0, from the operands as they were before the write. -/
def Obligations.AddWritesSumToR0 : Prop :=
  (∀ a b : RegIdx, StepRuns [0xA0, regByte a, regByte b] (.add (regByte a) (regByte b))) ∧
  (∀ (a b : RegIdx) (s : State), ∃ t, exec (.add (regByte a) (regByte b)) s = .next t ∧
    (t.reg 0).toNat = ((s.reg a).toNat + (s.reg b).toNat) % 256 ∧ t.pc = s.pc + 3 ∧
    s.RegsKeptExcept t [0] ∧ s.MemKept t ∧ s.RestKept t) ∧
  OperandFetchFaults 0xA0 3 ∧ FirstFieldChecked 0xA0 3 ∧ SecondFieldChecked 0xA0

/-- CMP (R143), for every pair of registers: the whole byte FL is written, with one bit set (D3). With FLAGS_IN_R4 true
(D1) the byte is written to x[4]; that the field of the dedicated FL, which is absent then, keeps its value (the clause
t.fl = s.fl) is the model's choice (log entry 4). -/
def Obligations.CmpSetsExactlyOneFlag : Prop :=
  (∀ a b : RegIdx, StepRuns [0xA7, regByte a, regByte b] (.cmp (regByte a) (regByte b))) ∧
  (∀ (a b : RegIdx) (s : State), ∃ t, exec (.cmp (regByte a) (regByte b)) s = .next t ∧
    ((s.reg a).toNat < (s.reg b).toNat → t.flags = 0b00000100) ∧
    ((s.reg a).toNat > (s.reg b).toNat → t.flags = 0b00000010) ∧
    (s.reg a = s.reg b → t.flags = 0b00000001) ∧ t.pc = s.pc + 3 ∧
    s.RegsKeptExcept t (if s.flagsInR4 then [4] else []) ∧ (s.flagsInR4 = true → t.fl = s.fl) ∧
    s.MemKept t ∧ t.run = s.run ∧ t.fault = s.fault ∧ t.out = s.out ∧ t.flagsInR4 = s.flagsInR4) ∧
  OperandFetchFaults 0xA7 3 ∧ FirstFieldChecked 0xA7 3 ∧ SecondFieldChecked 0xA7

/-- CALL (R161), for every register: the return address pc + 2 is pushed and the target is read after the push, so CALL
R7 jumps to the decremented SP (D7). A return address above 255 raises AddressOutOfRange before any write (D8). -/
def Obligations.CallPushesReturnAddressAndJumps : Prop :=
  (∀ r : RegIdx, StepRuns [0x50, regByte r] (.call (regByte r))) ∧
  (∀ (r : RegIdx) (s : State), Memory.wf s.mem = true → s.pc.toNat ≤ 253 → ∃ t, exec (.call (regByte r)) s = .next t ∧
    t.sp = s.sp - 1 ∧ (Memory.read t.mem (s.sp - 1)).toNat = s.pc.toNat + 2 ∧
    t.pc = (if r = 7 then s.sp - 1 else s.reg r).setWidth 9 ∧
    s.RegsKeptExcept t [7] ∧ s.MemKeptExcept t (s.sp - 1) ∧ s.RestKept t) ∧
  (∀ (r : RegIdx) (s : State), 254 ≤ s.pc.toNat →
    exec (.call (regByte r)) s = .next (s.raise (.addressOutOfRange (s.pc.toNat + 2)))) ∧
  OperandFetchFaults 0x50 2 ∧ FirstFieldChecked 0x50 2

/-- RET (R162), for every value of x[7]; it raises no fault of its own. -/
def Obligations.RetPopsProgramCounter : Prop :=
  StepRuns [0x11] .ret ∧
  (∀ s : State, ∃ t, exec .ret s = .next t ∧
    t.pc.toNat = (Memory.read s.mem s.sp).toNat ∧ t.sp = s.sp + 1 ∧
    s.RegsKeptExcept t [7] ∧ s.MemKept t ∧ s.RestKept t)

/-- JEQ (R163), for every register: FL[0] = 1 decides, and the register field is checked whether or not the jump is taken
(D6). Only pc changes. -/
def Obligations.JeqJumpsIfEqualBitSet : Prop :=
  (∀ r : RegIdx, StepRuns [0x55, regByte r] (.jeq (regByte r))) ∧
  (∀ (r : RegIdx) (s : State), exec (.jeq (regByte r)) s =
    .next { s with pc := if s.flags.getLsbD 0 = true then (s.reg r).setWidth 9 else s.pc + 2 }) ∧
  OperandFetchFaults 0x55 2 ∧ FirstFieldChecked 0x55 2

/-- JNE (R164), for every register: FL[0] = 0 decides, and the register field is checked whether or not the jump is taken
(D6). Only pc changes. -/
def Obligations.JneJumpsIfEqualBitClear : Prop :=
  (∀ r : RegIdx, StepRuns [0x56, regByte r] (.jne (regByte r))) ∧
  (∀ (r : RegIdx) (s : State), exec (.jne (regByte r)) s =
    .next { s with pc := if s.flags.getLsbD 0 = false then (s.reg r).setWidth 9 else s.pc + 2 }) ∧
  OperandFetchFaults 0x56 2 ∧ FirstFieldChecked 0x56 2

/-- JMP (R165), for every register. Only pc changes; a JMP to its own address steps to the same state for ever. -/
def Obligations.JmpJumpsToRegister : Prop :=
  (∀ r : RegIdx, StepRuns [0x54, regByte r] (.jmp (regByte r))) ∧
  (∀ (r : RegIdx) (s : State), exec (.jmp (regByte r)) s = .next { s with pc := (s.reg r).setWidth 9 }) ∧
  (∀ (r : RegIdx) (s : State), s.run = .running → s.BytesAtPc [0x54, regByte r] → (s.reg r).setWidth 9 = s.pc →
    step s = .next s) ∧
  OperandFetchFaults 0x54 2 ∧ FirstFieldChecked 0x54 2

/-- PRN (R181), for every register. Only out and pc change; a faulting PRN emits nothing. -/
def Obligations.PrnEmitsRegister : Prop :=
  (∀ r : RegIdx, StepRuns [0x47, regByte r] (.prn (regByte r))) ∧
  (∀ (r : RegIdx) (s : State), exec (.prn (regByte r)) s =
    .next { s with out := s.out ++ [s.reg r], pc := s.pc + 2 }) ∧
  OperandFetchFaults 0x47 2 ∧ FirstFieldChecked 0x47 2 ∧
  (∀ (s : State) (c : FaultCause), (s.raise c).out = s.out)

/-- HLT (R182): HALTED, pc past the instruction, nothing else changed; an HLT at 0xFF leaves pc = 256. No step follows, and
no other instruction ends a run cleanly. -/
def Obligations.HltHaltsPastItself : Prop :=
  StepRuns [0x01] .hlt ∧
  (∀ s : State, exec .hlt s = .next { s with run := .halted, pc := s.pc + 1 }) ∧
  (∀ s : State, s.pc.toNat ≤ 255 → (s.pc + 1).toNat = s.pc.toNat + 1) ∧
  (∀ s t : State, exec .hlt s = .next t → ∀ u : State, step t ≠ .next u) ∧
  (∀ s t : State, step s = .next t → t.EndedCleanly → s.byteAt? s.pc.toNat = some 0x01)

/-! ## Encoding -/

/-- Decoding the bytes of a well-formed instruction, whatever follows them, gives it back with the rest. -/
def Obligations.DecodeInvertsEncode : Prop :=
  ∀ (i : Instr) (rest : List Byte), i.wellFormed = true → decode (encode i ++ rest) = .ok (i, rest)

/-- Every successful decode is of a well-formed instruction, and its bytes are the ones the encoder writes. -/
def Obligations.EncodeInvertsDecode : Prop :=
  ∀ (bytes rest : List Byte) (i : Instr), decode bytes = .ok (i, rest) →
    i.wellFormed = true ∧ encode i ++ rest = bytes

/-- Words written out bit by bit from the encodings of R71 and R73 decode to what they stand for. -/
def Obligations.SampleWordsDecode : Prop :=
  decode [0b10000010, 0b00000011, 0b11111111] = .ok (.ldi 3 255, []) ∧
  decode [0b10100000, 0b00000010, 0b00000011] = .ok (.add 2 3, []) ∧
  decode [0b01010101, 0b00000010] = .ok (.jeq 2, []) ∧
  decode [0b01000111, 0b00000110] = .ok (.prn 6, []) ∧
  decode [0b00010001] = .ok (.ret, [])

/-- On every row the width is opcode[7:6] + 1 (R74, which the spec derives from R73). -/
def Obligations.WidthIsTopOpcodeBitsPlusOne : Prop :=
  ∀ i : Instr, (encode i).length = (i.opcode.extractLsb' 6 2).toNat + 1

/-- The assembly text of a well-formed instruction (R78, D23) reads back as it. -/
def Obligations.AssemblyTextReadsBack : Prop :=
  ∀ i : Instr, i.wellFormed = true → parseAsm (asmText i) = some i

/-! ## The step -/

/-- A RUNNING engine whose bytes at pc decode to an instruction runs that instruction, which is well-formed; nothing is
added around it. -/
def Obligations.StepRunsDecodedInstruction : Prop :=
  ∀ (s : State) (i : Instr) (rest : List Byte), s.run = .running → decode s.fetchWindow = .ok (i, rest) →
    i.wellFormed = true ∧ step s = exec i s

/-- Opcode fetch (R101). In a state that meets the invariant the only pc above 255 is 256. -/
def Obligations.FetchReadsOpcodeOrFaults : Prop :=
  (∀ s : State, s.run = .running → 255 < s.pc.toNat →
    step s = .next (s.raise (.addressOutOfRange s.pc.toNat))) ∧
  (∀ s : State, s.Inv → 255 < s.pc.toNat → s.pc.toNat = 256) ∧
  (∀ s : State, s.pc.toNat ≤ 255 →
    s.fetchWindow.head? = some (Memory.read s.mem (BitVec.ofNat 8 s.pc.toNat)))

/-- An unknown opcode halts the engine with opcode and pc in the record and changes nothing else (R102, R202); no legal
opcode is reported so. The illegal opcodes are those of the ranges of R75. -/
def Obligations.UnknownOpcodeHaltsAndChangesNothingElse : Prop :=
  (∀ (s : State) (opcode : Byte), s.run = .running → s.byteAt? s.pc.toNat = some opcode → IllegalOpcode opcode →
    step s = .next { s with run := .halted, fault := some ⟨.unknownOpcode opcode, s.pc⟩ }) ∧
  (∀ (opcode : Byte) (bytes : List Byte), ¬ IllegalOpcode opcode →
    ∀ b : Byte, decode (opcode :: bytes) ≠ .error (.unknownOpcode b))

/-- On an instruction with a register field above 7 every meaning raises RegisterIndexOutOfRange with the first such byte
and writes nothing (R105, D6). The step makes the check at decode; exec makes it again on every Instr (log entry 10). -/
def Obligations.IllFormedInstructionsRaiseRegisterFault : Prop :=
  ∀ (i : Instr) (s : State), i.wellFormed = false →
    ∃ b : Byte, i.operands.find? (fun x => decide (7 < x.toNat)) = some b ∧
      exec i s = .next (s.raise (.registerIndexOutOfRange b))

/-- The order of the fault checks where two of them fail together (R209, D9). -/
def Obligations.FirstFailingCheckIsReported : Prop :=
  (∀ (s : State) (opcode : Byte), s.run = .running → s.pc.toNat = 255 → s.BytesAtPc [opcode] → IllegalOpcode opcode →
    step s = .next (s.raise (.unknownOpcode opcode))) ∧
  (∀ (s : State) (opcode b1 : Byte), s.run = .running → s.pc.toNat = 254 → s.BytesAtPc [opcode, b1] → 7 < b1.toNat →
    (opcode = 0x82 ∨ opcode = 0xA0 ∨ opcode = 0xA7) → step s = .next (s.raise (.addressOutOfRange 256))) ∧
  (∀ (s : State) (opcode b1 b2 : Byte), s.run = .running → s.BytesAtPc [opcode, b1, b2] → 7 < b1.toNat → 7 < b2.toNat →
    (opcode = 0xA0 ∨ opcode = 0xA7) → step s = .next (s.raise (.registerIndexOutOfRange b1))) ∧
  (∀ (s : State) (b1 : Byte), s.run = .running → s.pc.toNat = 254 → s.BytesAtPc [0x50, b1] → 7 < b1.toNat →
    step s = .next (s.raise (.registerIndexOutOfRange b1)))

/-- The step is the pseudocode of R109 (which the spec derives from R100 to R108), in every state. In a HALTED
state, where the spec has no step, both answer engineHalted, which is the model's rendering (log entry 2). -/
def Obligations.StepIsTheSpecsPseudocode : Prop :=
  ∀ s : State, step s = pseudoStep s

/-- A HALTED engine has no step and a RUNNING one always has (R100, D21); the model answers engineHalted where there is
none (log entry 2). So nothing follows a state that has ended. -/
def Obligations.OnlyHaltedEngineHasNoStep : Prop :=
  (∀ s : State, s.run = .halted → step s = .fault .engineHalted) ∧
  (∀ s : State, s.run = .running → ∃ t, step s = .next t) ∧
  (∀ s t : State, s.Ended → Reaches s t → t = s)

/-- Every instruction, well-formed or not, in every state, ends in a next state: none stops the model. That a fault is a next
state is the model's reading (log entry 1), and so is what exec does with an ill-formed instruction, which no step reaches
(log entry 10). -/
def Obligations.EveryInstructionAnswersNextState : Prop :=
  ∀ (i : Instr) (s : State), ∃ t, exec i s = .next t

/-- A fault writes nothing but the halt and the record, which names the pc of the faulting instruction (R204, D10). -/
def Obligations.FaultsArePrecise : Prop :=
  ∀ (s t : State) (r : FaultRecord), step s = .next t → s.fault = none → t.fault = some r →
    r.pc = s.pc ∧ t = { s with run := .halted, fault := some r }

/-- RUNNING at reset with pc 0; HALTED after HLT or a fault and after nothing else; no step from HALTED; and no
instruction reads the run state (R38). -/
def Obligations.RunStateChangesOnlyByHltOrFault : Prop :=
  (State.reset.run = .running ∧ State.reset.pc = 0) ∧
  (∀ s t : State, step s = .next t → s.fault = none →
    (t.run = .halted ↔ s.byteAt? s.pc.toNat = some 0x01 ∨ t.fault ≠ none)) ∧
  (∀ s : State, s.run = .halted → ∀ t : State, step s ≠ .next t) ∧
  (∀ (i : Instr) (s t : State), exec i { s with run := .running } = .next t →
    ∃ t', exec i { s with run := .halted } = .next t' ∧ t = { t' with run := t.run })

/-- Arithmetic overflow, stack wrap, a stack write over code, a jump into data and any use of R7 halt nothing: a
well-formed instruction other than HLT, and other than a CALL whose return address does not fit, leaves the run state
and the fault record as they were, whatever the registers and memory hold (R207). That the stack pointer wraps with no check is D12, and the
CALL left out, whose return address is above 255, faults by D8 (CallPushesReturnAddressAndJumps says how). -/
def Obligations.OverflowAndStackWrapNeverHalt : Prop :=
  ∀ (i : Instr) (s : State), i.wellFormed = true → i ≠ .hlt → (∀ a, i = .call a → s.pc.toNat + 2 ≤ 255) →
    ∃ t, exec i s = .next t ∧ t.run = s.run ∧ t.fault = s.fault

/-! ## Who writes and reads what -/

/-- Only CMP writes the dedicated FL, with one of its three values (R30; D3 for the whole byte). That the field never
changes with FLAGS_IN_R4 true, where FL is absent, is the model's choice (log entry 4). -/
def Obligations.OnlyCmpWritesFlags : Prop :=
  ∀ s t : State, step s = .next t → t.fl ≠ s.fl →
    s.flagsInR4 = false ∧ s.byteAt? s.pc.toNat = some 0xA7 ∧ (t.fl = 0x01 ∨ t.fl = 0x02 ∨ t.fl = 0x04)

/-- GT, LT and the bits above them are read by no instruction: two states with the same EQ bit go the same way (R30). A
well-formed CMP leaves the same FL in both, so it takes over no bit of the old one; every other instruction leaves each FL
as it was, an ill-formed CMP too, which faults and which no step reaches (log entry 10). -/
def Obligations.OnlyTheEqualBitIsRead : Prop :=
  ∀ (i : Instr) (s t : State) (v : Byte), s.flagsInR4 = false → v.getLsbD 0 = s.fl.getLsbD 0 → exec i s = .next t →
    ∃ t', exec i { s with fl := v } = .next t' ∧ { t' with fl := t.fl } = t ∧
      ((∃ a b, i = .cmp a b) → i.wellFormed = true → t'.fl = t.fl) ∧
      ((∀ a b, i ≠ .cmp a b) ∨ i.wellFormed = false → t'.fl = v ∧ t.fl = s.fl)

/-- With FLAGS_IN_R4 true (R31, D1) the flags are x[4] and nothing else: every instruction leaves the parameter, a field of
the model (log entry 3), and the flags equal to x[4]. That the field of the dedicated FL, which is absent then, keeps its
value is the model's choice (log entry 4). -/
def Obligations.AliasedFlagsAreRegisterFour : Prop :=
  ∀ (i : Instr) (s t : State), s.flagsInR4 = true → exec i s = .next t →
    t.flagsInR4 = true ∧ t.flags = t.reg 4 ∧ t.fl = s.fl

/-- No step changes the parameter FLAGS_IN_R4 (log entry 3). -/
def Obligations.FlagsParameterIsConstant : Prop :=
  ∀ s t : State, Reaches s t → t.flagsInR4 = s.flagsInR4

/-- Memory changes only by PUSH and CALL, and only at x[7] after the decrement (R53). -/
def Obligations.OnlyPushAndCallWriteMemory : Prop :=
  ∀ s t : State, Memory.wf s.mem = true → step s = .next t → ∀ a : Byte, Memory.read t.mem a ≠ Memory.read s.mem a →
    a = s.sp - 1 ∧ (s.byteAt? s.pc.toNat = some 0x45 ∨ s.byteAt? s.pc.toNat = some 0x50)

/-- Only PRN appends to the output log, one byte a step, and no step reads the log (R40; D13 for the port). -/
def Obligations.OutputIsAppendedByPrnAndNeverRead : Prop :=
  (∀ s t : State, step s = .next t → t.out = s.out ∨
    ∃ r : RegIdx, s.BytesAtPc [0x47, regByte r] ∧ t.out = s.out ++ [s.reg r]) ∧
  (∀ (s t : State) (o : List Byte), step s = .next t →
    ∃ new : List Byte, t.out = s.out ++ new ∧ step { s with out := o } = .next { t with out := o ++ new })

/-- A store by PUSH is seen by the very next fetch, and an instruction that overwrites its own operand byte still runs
with the old one (R61, R251, D22). -/
def Obligations.FetchSeesStoresAtOnce : Prop :=
  (∀ (s t : State) (r : RegIdx), Memory.wf s.mem = true → s.run = .running → s.BytesAtPc [0x45, regByte r] → r ≠ 7 →
    s.sp.toNat = s.pc.toNat + 3 → step s = .next t →
    t.pc.toNat = s.pc.toNat + 2 ∧ t.fetchWindow.head? = some (s.reg r)) ∧
  (∀ (s t : State) (r : RegIdx), Memory.wf s.mem = true → s.run = .running → s.BytesAtPc [0x45, regByte r] → r ≠ 7 →
    s.sp.toNat = s.pc.toNat + 2 → step s = .next t →
    t.pc = s.pc + 2 ∧ t.byteAt? (s.pc.toNat + 1) = some (s.reg r) ∧ t.reg r = s.reg r)

/-! ## Laws over two instructions -/

/-- PUSH Ra then POP Ra, with anything between them that leaves x[7] and the byte it points at, gives x[a] and x[7] their
values from before the PUSH, R7 included (R123, which the spec derives from R121 and R122). -/
def Obligations.PushThenPopRestores : Prop :=
  ∀ (r : RegIdx) (s t u v : State), Memory.wf s.mem = true → exec (.push (regByte r)) s = .next t →
    u.sp = t.sp → Memory.read u.mem u.sp = Memory.read t.mem t.sp → exec (.pop (regByte r)) u = .next v →
    v.reg r = s.reg r ∧ v.sp = s.sp ∧
    Memory.read t.mem (s.sp - 1) = (if r = 7 then s.sp - 1 else s.reg r)

/-- CALL then RET, with anything between them that leaves x[7] and the byte it points at, returns to the instruction
after the CALL with x[7] as before (R161's law, which the spec derives for a callee of this kind). -/
def Obligations.CallThenRetReturnsPastCall : Prop :=
  ∀ (r : RegIdx) (s t u v : State), Memory.wf s.mem = true → s.pc.toNat ≤ 253 → exec (.call (regByte r)) s = .next t →
    u.sp = t.sp → Memory.read u.mem u.sp = Memory.read t.mem t.sp → exec .ret u = .next v →
    v.pc = s.pc + 2 ∧ v.sp = s.sp

/-- After a CMP of two registers, and whatever leaves the flags alone, JEQ is taken exactly if they were equal and JNE
exactly if they were not (R164's law). -/
def Obligations.JumpsFollowTheLastCompare : Prop :=
  ∀ (a b r : RegIdx) (s t u : State), exec (.cmp (regByte a) (regByte b)) s = .next t → u.flags = t.flags →
    exec (.jeq (regByte r)) u =
      .next { u with pc := if s.reg a = s.reg b then (u.reg r).setWidth 9 else u.pc + 2 } ∧
    exec (.jne (regByte r)) u =
      .next { u with pc := if s.reg a = s.reg b then u.pc + 2 else (u.reg r).setWidth 9 }

/-! ## Reset, load, end of a run -/

/-- The register file at reset (R21). -/
def Obligations.ResetRegisterFile : Prop :=
  ∀ r : RegIdx, State.reset.reg r = if r = 7 then 0xF4 else 0x00

/-- The rest of the reset state (R230): FL is the spec's decision D2, the empty record and log are its derivations, and
FLAGS_IN_R4 is false (D1). -/
def Obligations.ResetLeavesZeroMemoryAndRunning : Prop :=
  (∀ a : Byte, Memory.read State.reset.mem a = 0x00) ∧ State.reset.fl = 0x00 ∧ State.reset.flagsInR4 = false ∧
  State.reset.pc = 0 ∧ State.reset.run = .running ∧ State.reset.fault = none ∧ State.reset.out = []

/-- The invariant holds at reset: among its clauses are canonical memory (log entry 6) and the 0 in the place of an absent
FL (log entry 4), which are the model's. -/
def Obligations.InvariantAtReset : Prop := State.reset.Inv

/-- Every step keeps the invariant: canonical memory, pc at most 256 (D4), legal FL, and fault records that halt the engine
and say what was wrong at pc, never UnsupportedAluOp (R206). Of its clauses canonical memory is the model's representation
(log entry 6), the 0 in the place of an FL that is absent its choice (log entry 4), and that the address reported is always
256, where R201 lists 256 and 257, its inference from R104 (log entry 20). -/
def Obligations.StepKeepsInvariant : Prop :=
  ∀ s t : State, s.Inv → step s = .next t → t.Inv

/-- Memories in canonical form that read the same everywhere are the same list: a fact about the model's representation of
memory (log entry 6), which the spec does not have. -/
def Obligations.EqualReadsMeanEqualMemories : Prop :=
  ∀ m n : Memory, Memory.wf m = true → Memory.wf n = true → (∀ a : Byte, Memory.read m a = Memory.read n a) → m = n

/-- Loading an image after reset: image byte k goes to mem[k], every byte from the image's length up stays 0x00, and
nothing but memory changes (R231; D16 for the length). That the state the run starts from meets the invariant, canonical
memory among its clauses, is the model's (log entries 4 and 6). -/
def Obligations.LoadFillsMemoryFromZero : Prop :=
  ∀ (image : List Byte), image.length ≤ 256 → ∃ t, State.reset.load image = .ok t ∧
    (∀ (k : Nat) (b : Byte), image[k]? = some b → Memory.read t.mem (BitVec.ofNat 8 k) = b) ∧
    (∀ a : Byte, image.length ≤ a.toNat → Memory.read t.mem a = 0x00) ∧
    t = { State.reset with mem := t.mem } ∧ t.Inv

/-- Load errors (R242): an image of more than 256 bytes (D16), a file that does not parse, a line that is no base-2
literal, a literal above 255 with or without leading zeros (D15). None leaves a state to run, and the exit status is
FAULT_EXIT_STATUS = 1 (D14). The model's choices: which characters are white space (log entry 13), on which the third
clause rests, and that the parse error is the one named where the image is too long as well (log entry 22). -/
def Obligations.FailedLoadLeavesNothingToRun : Prop :=
  (∀ text image, parseImage text = .ok image → 256 < image.length → boot text = .error .imageTooLong) ∧
  (∀ text e, parseImage text = .error e → boot text = .error e) ∧
  (∀ line : List Char, (∀ c ∈ line, c ≠ '\n' ∧ c ≠ '#' ∧ isBlank c = false) → line ≠ [] →
    (∃ c ∈ line, c ≠ '0' ∧ c ≠ '1') → parseImage line = .error .malformedLine) ∧
  (∀ digits : List Char, (∀ c ∈ digits, c = '0' ∨ c = '1') → 255 < binaryNumeral digits →
    parseImage digits = .error .literalTooLarge) ∧
  (∀ text e, boot text = .error e → bootExitStatus (boot text) = some 1)

/-- A file of accepted lines is the image of its literals in file order (R240): each line may hold a literal of one or more
digits (D15 for fewer than 8, or more), a comment, both, or nothing but white space, and lines without a literal consume no
address. The last line has no line feed; a file that ends in one has an empty last line. An 8-digit literal stands for its
byte, most significant bit first. That a line ends only at a line feed, so that a comment may hold a carriage return, and
which white space is trimmed, is the model's choice (log entry 13). -/
def Obligations.ImageFileOfBinaryLinesParses : Prop :=
  (∀ (lines : List ImageLine) (last : ImageLine), (∀ l ∈ lines, l.Ok) → last.Ok →
    parseImage (lines.flatMap (fun l => l.text ++ ['\n']) ++ last.text) =
      .ok ((lines ++ [last]).filterMap ImageLine.byte?)) ∧
  (∀ b : Byte, (binaryLiteral b).length = 8 ∧ (∀ c ∈ binaryLiteral b, c = '0' ∨ c = '1') ∧
    binaryNumeral (binaryLiteral b) = b.toNat)

/-- The exit status of an ended run is 0 exactly after HLT and 1 after any fault (R221; D14 for the faults other than
UnknownOpcode). That there is none while the engine is RUNNING is the model's choice (log entry 19). -/
def Obligations.ExitStatusTellsHltFromFault : Prop :=
  ∀ s t : State, s.Inv → step s = .next t →
    (t.run = .running → t.status.exitStatus = none) ∧
    (t.run = .halted → s.byteAt? s.pc.toNat = some 0x01 → t.status.exitStatus = some 0) ∧
    (t.run = .halted → s.byteAt? s.pc.toNat ≠ some 0x01 → t.status.exitStatus = some 1)

/-- What the host writes for one emitted byte is its decimal numeral, without leading zeros, and a newline (R180; the
numeral's form is general knowledge in the spec, G1). -/
def Obligations.RenderedByteReadsBackInDecimal : Prop :=
  ∀ (v : Byte) (out : List Byte), renderOutput (v :: out) = decimal v ++ '\n' :: renderOutput out ∧
    parseImm (decimal v) = some v ∧ ((decimal v).head? = some '0' → v = 0)

/-- A word of the opcode table placed where the machine fetches is what the next step runs (log entry 7). -/
def Obligations.PlacedTableWordRunsNext : Prop :=
  ∀ (s : State) (nbits w : Nat) (i : Instr), Memory.wf s.mem = true → s.run = .running → s.pc.toNat ≤ 253 → decodeTableWord nbits w = some i →
    step (s.withFetchWord nbits w) = exec i (s.withFetchWord nbits w)
end

