-- ==== Sys2Proof/Laws/Decode.lean ====
section
/-! SUPPORT. What looking up an opcode, fetching operands and decoding can do. -/

namespace Sys2Proof

/-- A looked-up row is a row of the table and has the opcode asked for. -/
theorem dispatch?_some {opcode : Byte} {row : Row} (h : dispatch? opcode = some row) :
    row ∈ dispatchTable ∧ row.opcode = opcode :=
  ⟨List.mem_of_find?_eq_some h, by simpa using List.find?_some h⟩

/-- The 13 rows. -/
theorem mem_dispatchTable {row : Row} (h : row ∈ dispatchTable) :
    row = ⟨0x82, .ri, fun b1 b2 => .ldi b1 b2⟩ ∨ row = ⟨0x47, .r, fun b1 _ => .prn b1⟩ ∨
    row = ⟨0xA2, .xx, fun b1 b2 => .mul b1 b2⟩ ∨ row = ⟨0x45, .r, fun b1 _ => .push b1⟩ ∨
    row = ⟨0x46, .r, fun b1 _ => .pop b1⟩ ∨ row = ⟨0x01, .z, fun _ _ => .hlt⟩ ∨
    row = ⟨0x50, .r, fun b1 _ => .call b1⟩ ∨ row = ⟨0x11, .z, fun _ _ => .ret⟩ ∨
    row = ⟨0xA0, .rr, fun b1 b2 => .add b1 b2⟩ ∨ row = ⟨0xA7, .rr, fun b1 b2 => .cmp b1 b2⟩ ∨
    row = ⟨0x55, .r, fun b1 _ => .jeq b1⟩ ∨ row = ⟨0x56, .r, fun b1 _ => .jne b1⟩ ∨
    row = ⟨0x54, .r, fun b1 _ => .jmp b1⟩ := by
  simpa [dispatchTable] using h

/-- Each row of the table is found under its own opcode: no two rows share a byte (R73). -/
theorem dispatch?_of_mem {row : Row} (h : row ∈ dispatchTable) : dispatch? row.opcode = some row := by
  rcases mem_dispatchTable h with rfl | rfl | rfl | rfl | rfl | rfl | rfl | rfl | rfl | rfl | rfl | rfl | rfl <;> rfl

/-- All that operand fetch can do at a width of the table: the operand bytes and the rest, or the first byte missing. -/
theorem takeOperands_cases (f : Format) (bytes : List Byte) :
    (∃ b1 b2 rest, takeOperands f.width bytes = .ok (b1, b2, rest) ∧
      ((f.width = 1 ∧ b1 = 0 ∧ b2 = 0 ∧ bytes = rest) ∨ (f.width = 2 ∧ b2 = 0 ∧ bytes = b1 :: rest) ∨
        (f.width = 3 ∧ bytes = b1 :: b2 :: rest))) ∨
    (bytes.length + 1 < f.width ∧ takeOperands f.width bytes = .error (.missingByte (bytes.length + 1))) := by
  rcases bytes with _ | ⟨b, _ | ⟨c, l⟩⟩ <;> cases f <;> simp [takeOperands, Format.width]

/-- All that decoding can do when it succeeds. -/
theorem decode_ok_cases {bytes rest : List Byte} {i : Instr} (h : decode bytes = .ok (i, rest)) :
    ∃ row ∈ dispatchTable, ∃ b1 b2 tail, bytes = row.opcode :: tail ∧
      takeOperands row.format.width tail = .ok (b1, b2, rest) ∧
      firstBadIndex (row.format.registerFields b1 b2) = none ∧ i = row.build b1 b2 := by
  rcases bytes with _ | ⟨opcode, tail⟩
  · simp [decode] at h
  · simp only [decode] at h
    split at h
    · simp at h
    · rename_i row hrow
      obtain ⟨hmem, rfl⟩ := dispatch?_some hrow
      split at h
      · simp at h
      · rename_i b1 b2 rest' htake
        split at h
        · simp at h
        · rename_i hbad
          simp only [Except.ok.injEq, Prod.mk.injEq] at h
          obtain ⟨rfl, rfl⟩ := h
          exact ⟨row, hmem, b1, b2, tail, rfl, htake, hbad, rfl⟩

/-- All that decoding can do when it fails, in the order of R209. -/
theorem decode_error_cases {bytes : List Byte} {e : DecodeError} (h : decode bytes = .error e) :
    (bytes = [] ∧ e = .missingByte 0) ∨
    (∃ opcode tail, bytes = opcode :: tail ∧ dispatch? opcode = none ∧ e = .unknownOpcode opcode) ∨
    (∃ row ∈ dispatchTable, ∃ tail, bytes = row.opcode :: tail ∧ tail.length + 1 < row.format.width ∧
      e = .missingByte (tail.length + 1)) ∨
    (∃ row ∈ dispatchTable, ∃ b1 b2 tail rest b, bytes = row.opcode :: tail ∧
      takeOperands row.format.width tail = .ok (b1, b2, rest) ∧
      firstBadIndex (row.format.registerFields b1 b2) = some b ∧ e = .registerIndexOutOfRange b) := by
  rcases bytes with _ | ⟨opcode, tail⟩
  · simp only [decode, Except.error.injEq] at h
    exact .inl ⟨rfl, h.symm⟩
  · refine .inr ?_
    simp only [decode] at h
    split at h
    · rename_i hrow
      simp only [Except.error.injEq] at h
      exact .inl ⟨opcode, tail, rfl, hrow, h.symm⟩
    · rename_i row hrow
      obtain ⟨hmem, rfl⟩ := dispatch?_some hrow
      refine .inr ?_
      split at h
      · rename_i e' htake
        simp only [Except.error.injEq] at h
        subst h
        rcases takeOperands_cases row.format tail with ⟨_, _, _, hok, _⟩ | ⟨hlen, herr⟩
        · simp [hok] at htake
        · rw [herr] at htake
          simp only [Except.error.injEq] at htake
          exact .inl ⟨row, hmem, tail, rfl, hlen, htake.symm⟩
      · rename_i b1 b2 rest htake
        split at h
        · rename_i b hbad
          simp only [Except.error.injEq] at h
          exact .inr ⟨row, hmem, b1, b2, tail, rest, b, rfl, htake, hbad, h.symm⟩
        · simp at h

/-- A byte reported as a bad register index is above 7. -/
theorem firstBadIndex_some {fields : List Byte} {b : Byte} (h : firstBadIndex fields = some b) :
    b ∈ fields ∧ 7 < b.toNat :=
  ⟨List.mem_of_find?_eq_some h, by simpa using List.find?_some h⟩

/-- No bad register index is found exactly when every field is legal. -/
theorem firstBadIndex_none_iff {fields : List Byte} : firstBadIndex fields = none ↔ ∀ b ∈ fields, IsRegIndex b := by
  simp [firstBadIndex]

end Sys2Proof
end

