-- ==== Sys2Proof/Laws/Operands.lean ====
section
/-! SUPPORT. What resolving a register-index byte can do. -/

namespace Sys2Proof.Machine

@[simp] theorem regByte_toNat (r : RegIdx) : (regByte r).toNat = r.val := by
  have := r.isLt
  simp [regByte]; omega

@[simp] theorem regIndex?_regByte (r : RegIdx) : regIndex? (regByte r) = some r := by
  simp [regIndex?]

theorem regByte_isRegIndex (r : RegIdx) : IsRegIndex (regByte r) := by
  have := r.isLt
  simp [IsRegIndex]; omega

/-- Every legal register-index byte is the byte of a register. -/
theorem exists_regByte {b : Byte} (h : b.toNat ≤ 7) : ∃ r : RegIdx, b = regByte r :=
  ⟨⟨b.toNat, by omega⟩, BitVec.eq_of_toNat_eq (by simp)⟩

theorem regByte_injective {q r : RegIdx} (h : regByte q = regByte r) : q = r :=
  Fin.ext (by simpa using congrArg BitVec.toNat h)

/-- A byte that names a register runs the instruction on that register. -/
@[simp] theorem withReg_regByte (r : RegIdx) (s : State) (k : RegIdx → Result) : withReg (regByte r) s k = k r := by
  simp [withReg]

/-- A byte above 7 raises RegisterIndexOutOfRange with that byte. -/
theorem withReg_of_gt {b : Byte} (h : 7 < b.toNat) (s : State) (k : RegIdx → Result) :
    withReg b s k = .next (s.raise (.registerIndexOutOfRange b)) := by
  simp [withReg, regIndex?, show ¬ b.toNat < 8 by omega]

/-- All that withReg can do. -/
theorem withReg_cases (b : Byte) (s : State) (k : RegIdx → Result) :
    (∃ r, b = regByte r ∧ withReg b s k = k r) ∨
    (7 < b.toNat ∧ withReg b s k = .next (s.raise (.registerIndexOutOfRange b))) := by
  by_cases h : b.toNat ≤ 7
  · obtain ⟨r, rfl⟩ := exists_regByte h
    exact .inl ⟨r, rfl, withReg_regByte r s k⟩
  · exact .inr ⟨by omega, withReg_of_gt (by omega) s k⟩

end Sys2Proof.Machine
end

