-- ==== Sys2Proof/Laws/State.lean ====
section
/-! SUPPORT. One lemma per field per update of the state, so that no proof unfolds a record update. -/

namespace Sys2Proof.Machine

variable (s : State)

/-! ## setReg -/

@[simp] theorem State.setReg_mem (i : RegIdx) (v : Byte) : (s.setReg i v).mem = s.mem := rfl
@[simp] theorem State.setReg_fl (i : RegIdx) (v : Byte) : (s.setReg i v).fl = s.fl := rfl
@[simp] theorem State.setReg_pc (i : RegIdx) (v : Byte) : (s.setReg i v).pc = s.pc := rfl
@[simp] theorem State.setReg_run (i : RegIdx) (v : Byte) : (s.setReg i v).run = s.run := rfl
@[simp] theorem State.setReg_fault (i : RegIdx) (v : Byte) : (s.setReg i v).fault = s.fault := rfl
@[simp] theorem State.setReg_out (i : RegIdx) (v : Byte) : (s.setReg i v).out = s.out := rfl
@[simp] theorem State.setReg_flagsInR4 (i : RegIdx) (v : Byte) : (s.setReg i v).flagsInR4 = s.flagsInR4 := rfl
@[simp] theorem State.setReg_reg (i : RegIdx) (v : Byte) (q : RegIdx) :
    (s.setReg i v).reg q = if q = i then v else s.reg q := by
  simp [State.reg, State.setReg, Vector.getElem_set, Fin.ext_iff, eq_comm]
@[simp] theorem State.setReg_sp (i : RegIdx) (v : Byte) : (s.setReg i v).sp = if 7 = i then v else s.sp :=
  s.setReg_reg i v 7

/-! ## setTop -/

@[simp] theorem State.setTop_mem (v : Byte) : (s.setTop v).mem = Memory.write s.mem s.sp v := rfl
@[simp] theorem State.setTop_x (v : Byte) : (s.setTop v).x = s.x := rfl
@[simp] theorem State.setTop_fl (v : Byte) : (s.setTop v).fl = s.fl := rfl
@[simp] theorem State.setTop_pc (v : Byte) : (s.setTop v).pc = s.pc := rfl
@[simp] theorem State.setTop_run (v : Byte) : (s.setTop v).run = s.run := rfl
@[simp] theorem State.setTop_fault (v : Byte) : (s.setTop v).fault = s.fault := rfl
@[simp] theorem State.setTop_out (v : Byte) : (s.setTop v).out = s.out := rfl
@[simp] theorem State.setTop_flagsInR4 (v : Byte) : (s.setTop v).flagsInR4 = s.flagsInR4 := rfl
@[simp] theorem State.setTop_reg (v : Byte) (q : RegIdx) : (s.setTop v).reg q = s.reg q := rfl
@[simp] theorem State.setTop_sp (v : Byte) : (s.setTop v).sp = s.sp := rfl

/-! ## advance -/

@[simp] theorem State.advance_mem (w : Nat) : (s.advance w).mem = s.mem := rfl
@[simp] theorem State.advance_x (w : Nat) : (s.advance w).x = s.x := rfl
@[simp] theorem State.advance_fl (w : Nat) : (s.advance w).fl = s.fl := rfl
@[simp] theorem State.advance_pc (w : Nat) : (s.advance w).pc = s.pc + BitVec.ofNat 9 w := rfl
@[simp] theorem State.advance_run (w : Nat) : (s.advance w).run = s.run := rfl
@[simp] theorem State.advance_fault (w : Nat) : (s.advance w).fault = s.fault := rfl
@[simp] theorem State.advance_out (w : Nat) : (s.advance w).out = s.out := rfl
@[simp] theorem State.advance_flagsInR4 (w : Nat) : (s.advance w).flagsInR4 = s.flagsInR4 := rfl
@[simp] theorem State.advance_reg (w : Nat) (q : RegIdx) : (s.advance w).reg q = s.reg q := rfl
@[simp] theorem State.advance_sp (w : Nat) : (s.advance w).sp = s.sp := rfl

/-! ## jump -/

@[simp] theorem State.jump_mem (v : Byte) : (s.jump v).mem = s.mem := rfl
@[simp] theorem State.jump_x (v : Byte) : (s.jump v).x = s.x := rfl
@[simp] theorem State.jump_fl (v : Byte) : (s.jump v).fl = s.fl := rfl
@[simp] theorem State.jump_pc (v : Byte) : (s.jump v).pc = v.setWidth 9 := rfl
@[simp] theorem State.jump_run (v : Byte) : (s.jump v).run = s.run := rfl
@[simp] theorem State.jump_fault (v : Byte) : (s.jump v).fault = s.fault := rfl
@[simp] theorem State.jump_out (v : Byte) : (s.jump v).out = s.out := rfl
@[simp] theorem State.jump_flagsInR4 (v : Byte) : (s.jump v).flagsInR4 = s.flagsInR4 := rfl
@[simp] theorem State.jump_reg (v : Byte) (q : RegIdx) : (s.jump v).reg q = s.reg q := rfl
@[simp] theorem State.jump_sp (v : Byte) : (s.jump v).sp = s.sp := rfl

/-! ## emit -/

@[simp] theorem State.emit_mem (v : Byte) : (s.emit v).mem = s.mem := rfl
@[simp] theorem State.emit_x (v : Byte) : (s.emit v).x = s.x := rfl
@[simp] theorem State.emit_fl (v : Byte) : (s.emit v).fl = s.fl := rfl
@[simp] theorem State.emit_pc (v : Byte) : (s.emit v).pc = s.pc := rfl
@[simp] theorem State.emit_run (v : Byte) : (s.emit v).run = s.run := rfl
@[simp] theorem State.emit_fault (v : Byte) : (s.emit v).fault = s.fault := rfl
@[simp] theorem State.emit_out (v : Byte) : (s.emit v).out = s.out ++ [v] := rfl
@[simp] theorem State.emit_flagsInR4 (v : Byte) : (s.emit v).flagsInR4 = s.flagsInR4 := rfl
@[simp] theorem State.emit_reg (v : Byte) (q : RegIdx) : (s.emit v).reg q = s.reg q := rfl
@[simp] theorem State.emit_sp (v : Byte) : (s.emit v).sp = s.sp := rfl

/-! ## halt -/

@[simp] theorem State.halt_mem : (s.halt).mem = s.mem := rfl
@[simp] theorem State.halt_x : (s.halt).x = s.x := rfl
@[simp] theorem State.halt_fl : (s.halt).fl = s.fl := rfl
@[simp] theorem State.halt_pc : (s.halt).pc = s.pc := rfl
@[simp] theorem State.halt_run : (s.halt).run = .halted := rfl
@[simp] theorem State.halt_fault : (s.halt).fault = s.fault := rfl
@[simp] theorem State.halt_out : (s.halt).out = s.out := rfl
@[simp] theorem State.halt_flagsInR4 : (s.halt).flagsInR4 = s.flagsInR4 := rfl
@[simp] theorem State.halt_reg (q : RegIdx) : (s.halt).reg q = s.reg q := rfl
@[simp] theorem State.halt_sp : (s.halt).sp = s.sp := rfl

/-! ## decSp -/

@[simp] theorem State.decSp_mem : (s.decSp).mem = s.mem := rfl
@[simp] theorem State.decSp_fl : (s.decSp).fl = s.fl := rfl
@[simp] theorem State.decSp_pc : (s.decSp).pc = s.pc := rfl
@[simp] theorem State.decSp_run : (s.decSp).run = s.run := rfl
@[simp] theorem State.decSp_fault : (s.decSp).fault = s.fault := rfl
@[simp] theorem State.decSp_out : (s.decSp).out = s.out := rfl
@[simp] theorem State.decSp_flagsInR4 : (s.decSp).flagsInR4 = s.flagsInR4 := rfl
@[simp] theorem State.decSp_reg (q : RegIdx) : s.decSp.reg q = if q = 7 then s.sp - 1 else s.reg q :=
  s.setReg_reg 7 _ q
@[simp] theorem State.decSp_sp : s.decSp.sp = s.sp - 1 := by simp [State.sp, Config.spIndex]

/-! ## incSp -/

@[simp] theorem State.incSp_mem : (s.incSp).mem = s.mem := rfl
@[simp] theorem State.incSp_fl : (s.incSp).fl = s.fl := rfl
@[simp] theorem State.incSp_pc : (s.incSp).pc = s.pc := rfl
@[simp] theorem State.incSp_run : (s.incSp).run = s.run := rfl
@[simp] theorem State.incSp_fault : (s.incSp).fault = s.fault := rfl
@[simp] theorem State.incSp_out : (s.incSp).out = s.out := rfl
@[simp] theorem State.incSp_flagsInR4 : (s.incSp).flagsInR4 = s.flagsInR4 := rfl
@[simp] theorem State.incSp_reg (q : RegIdx) : s.incSp.reg q = if q = 7 then s.sp + 1 else s.reg q :=
  s.setReg_reg 7 _ q
@[simp] theorem State.incSp_sp : s.incSp.sp = s.sp + 1 := by simp [State.sp, Config.spIndex]

/-! ## raise -/

@[simp] theorem State.raise_mem (c : FaultCause) : (s.raise c).mem = s.mem := rfl
@[simp] theorem State.raise_x (c : FaultCause) : (s.raise c).x = s.x := rfl
@[simp] theorem State.raise_fl (c : FaultCause) : (s.raise c).fl = s.fl := rfl
@[simp] theorem State.raise_pc (c : FaultCause) : (s.raise c).pc = s.pc := rfl
@[simp] theorem State.raise_run (c : FaultCause) : (s.raise c).run = .halted := rfl
@[simp] theorem State.raise_fault (c : FaultCause) : (s.raise c).fault = some ⟨c, s.pc⟩ := rfl
@[simp] theorem State.raise_out (c : FaultCause) : (s.raise c).out = s.out := rfl
@[simp] theorem State.raise_flagsInR4 (c : FaultCause) : (s.raise c).flagsInR4 = s.flagsInR4 := rfl
@[simp] theorem State.raise_reg (c : FaultCause) (q : RegIdx) : (s.raise c).reg q = s.reg q := rfl
@[simp] theorem State.raise_sp (c : FaultCause) : (s.raise c).sp = s.sp := rfl

/-! ## setFlags -/

@[simp] theorem State.setFlags_mem (v : Byte) : (s.setFlags v).mem = s.mem := by
  unfold State.setFlags; split <;> rfl
@[simp] theorem State.setFlags_pc (v : Byte) : (s.setFlags v).pc = s.pc := by
  unfold State.setFlags; split <;> rfl
@[simp] theorem State.setFlags_run (v : Byte) : (s.setFlags v).run = s.run := by
  unfold State.setFlags; split <;> rfl
@[simp] theorem State.setFlags_fault (v : Byte) : (s.setFlags v).fault = s.fault := by
  unfold State.setFlags; split <;> rfl
@[simp] theorem State.setFlags_out (v : Byte) : (s.setFlags v).out = s.out := by
  unfold State.setFlags; split <;> rfl
@[simp] theorem State.setFlags_flagsInR4 (v : Byte) : (s.setFlags v).flagsInR4 = s.flagsInR4 := by
  unfold State.setFlags; split <;> rfl
@[simp] theorem State.setFlags_fl (v : Byte) : (s.setFlags v).fl = if s.flagsInR4 then s.fl else v := by
  unfold State.setFlags; split <;> rfl
@[simp] theorem State.setFlags_reg (v : Byte) (q : RegIdx) :
    (s.setFlags v).reg q = if s.flagsInR4 = true ∧ q = 4 then v else s.reg q := by
  unfold State.setFlags
  split
  · simp_all [Config.flagsAlias]
  · simp_all [State.reg]
/-- FL reads back what was written to it, in both settings of FLAGS_IN_R4. -/
@[simp] theorem State.setFlags_flags (v : Byte) : (s.setFlags v).flags = v := by
  by_cases h : s.flagsInR4 = true <;> simp [State.flags, Config.flagsAlias, h]

/-! ## Memory bytes and the fetch window read memory and pc alone -/

theorem State.fetchWindow_congr (t : State) (hm : t.mem = s.mem) (hp : t.pc = s.pc) : t.fetchWindow = s.fetchWindow := by
  simp [State.fetchWindow, hm, hp]

theorem State.byteAt?_congr (t : State) (hm : t.mem = s.mem) (a : Nat) : t.byteAt? a = s.byteAt? a := by
  simp [State.byteAt?, hm]

/-- Two states with the same fields are the same state; the register file is compared register by register. -/
theorem State.ext_fields (t : State) (hmem : t.mem = s.mem) (hreg : ∀ q, t.reg q = s.reg q) (hfl : t.fl = s.fl)
    (hpc : t.pc = s.pc) (hrun : t.run = s.run) (hfault : t.fault = s.fault) (hout : t.out = s.out)
    (hcfg : t.flagsInR4 = s.flagsInR4) : t = s := by
  have hx : t.x = s.x := Vector.ext fun i hi => hreg ⟨i, hi⟩
  cases s; cases t; simp_all

end Sys2Proof.Machine
end

