-- ==== Sys2Proof/Laws/Exec.lean ====
section
/-! SUPPORT. What exec answers for each instruction on register operands: one equation per instruction. -/

namespace Sys2Proof.Machine

variable (s : State)

theorem exec_ldi (r : RegIdx) (imm8 : Byte) :
    exec (.ldi (regByte r) imm8) s = .next ((s.setReg r imm8).advance 3) := by simp [exec, execLdi]

theorem exec_push (r : RegIdx) :
    exec (.push (regByte r)) s = .next ((s.decSp.setTop (s.decSp.reg r)).advance 2) := by simp [exec, execPush]

theorem exec_pop (r : RegIdx) :
    exec (.pop (regByte r)) s = .next ((s.setReg r s.top).incSp.advance 2) := by simp [exec, execPop]

theorem exec_mul (u v : Byte) :
    exec (.mul u v) s = .next ((s.setReg 0 (aluMul (s.reg 0) (s.reg 1))).advance 3) := rfl

theorem exec_add (a b : RegIdx) :
    exec (.add (regByte a) (regByte b)) s = .next ((s.setReg 0 (aluAdd (s.reg a) (s.reg b))).advance 3) := by
  simp [exec, execAdd]

theorem exec_cmp (a b : RegIdx) :
    exec (.cmp (regByte a) (regByte b)) s = .next ((s.setFlags (aluCompare (s.reg a) (s.reg b))).advance 3) := by
  simp [exec, execCmp]

/-- CALL's target register is read after the push, from the state with x[7] decremented. -/
theorem exec_call (r : RegIdx) (h : s.pc.toNat + 2 < 256) :
    exec (.call (regByte r)) s =
      .next ((s.decSp.setTop (BitVec.ofNat 8 (s.pc.toNat + 2))).jump (s.decSp.reg r)) := by
  simp [exec, execCall, State.returnAddress, Config.memSize, h]

/-- A CALL whose return address is no byte raises AddressOutOfRange. -/
theorem exec_call_fault (r : RegIdx) (h : 256 ≤ s.pc.toNat + 2) :
    exec (.call (regByte r)) s = .next (s.raise (.addressOutOfRange (s.pc.toNat + 2))) := by
  simp [exec, execCall, State.returnAddress, Config.memSize, show ¬ s.pc.toNat + 2 < 256 by omega]

theorem exec_ret : exec .ret s = .next (s.incSp.jump s.top) := rfl

theorem exec_jeq (r : RegIdx) : exec (.jeq (regByte r)) s = .next (jumpIf s.eqBit r s) := by simp [exec, execJeq]

theorem exec_jne (r : RegIdx) : exec (.jne (regByte r)) s = .next (jumpIf (!s.eqBit) r s) := by simp [exec, execJne]

theorem exec_jmp (r : RegIdx) : exec (.jmp (regByte r)) s = .next (s.jump (s.reg r)) := by simp [exec, execJmp]

theorem exec_prn (r : RegIdx) : exec (.prn (regByte r)) s = .next ((s.emit (s.reg r)).advance 2) := by
  simp [exec, execPrn]

theorem exec_hlt : exec .hlt s = .next (s.halt.advance 1) := rfl

/-! ## jumpIf changes pc alone -/

section
variable (c : Bool) (r : RegIdx)

@[simp] theorem jumpIf_mem : (jumpIf c r s).mem = s.mem := by cases c <;> rfl
@[simp] theorem jumpIf_x : (jumpIf c r s).x = s.x := by cases c <;> rfl
@[simp] theorem jumpIf_reg (q : RegIdx) : (jumpIf c r s).reg q = s.reg q := by cases c <;> rfl
@[simp] theorem jumpIf_fl : (jumpIf c r s).fl = s.fl := by cases c <;> rfl
@[simp] theorem jumpIf_pc : (jumpIf c r s).pc = if c then (s.reg r).setWidth 9 else s.pc + 2 := by cases c <;> rfl
@[simp] theorem jumpIf_run : (jumpIf c r s).run = s.run := by cases c <;> rfl
@[simp] theorem jumpIf_fault : (jumpIf c r s).fault = s.fault := by cases c <;> rfl
@[simp] theorem jumpIf_out : (jumpIf c r s).out = s.out := by cases c <;> rfl
@[simp] theorem jumpIf_flagsInR4 : (jumpIf c r s).flagsInR4 = s.flagsInR4 := by cases c <;> rfl

end

/-! ## The ALU -/

theorem aluMul_toNat (a b : Byte) : (aluMul a b).toNat = a.toNat * b.toNat % 256 := by simp [aluMul]

theorem aluAdd_toNat (a b : Byte) : (aluAdd a b).toNat = (a.toNat + b.toNat) % 256 := by simp [aluAdd]

/-- All that the comparison can answer. -/
theorem aluCompare_cases (a b : Byte) :
    (a.toNat < b.toNat ∧ aluCompare a b = 0x04) ∨ (a.toNat > b.toNat ∧ aluCompare a b = 0x02) ∨
    (a = b ∧ aluCompare a b = 0x01) := by
  unfold aluCompare
  split
  · exact .inl ⟨‹_›, rfl⟩
  · split
    · exact .inr (.inl ⟨‹_›, rfl⟩)
    · exact .inr (.inr ⟨BitVec.eq_of_toNat_eq (by omega), rfl⟩)

/-! ## All that exec can do -/

/-- A well-formed instruction is one of the 13 on register operands. -/
theorem wellFormed_cases {i : Instr} (h : i.wellFormed = true) :
    (∃ r v, i = .ldi (regByte r) v) ∨ (∃ r, i = .prn (regByte r)) ∨ (∃ u v, i = .mul u v) ∨
    (∃ r, i = .push (regByte r)) ∨ (∃ r, i = .pop (regByte r)) ∨ i = .hlt ∨ (∃ r, i = .call (regByte r)) ∨
    i = .ret ∨ (∃ q r, i = .add (regByte q) (regByte r)) ∨ (∃ q r, i = .cmp (regByte q) (regByte r)) ∨
    (∃ r, i = .jeq (regByte r)) ∨ (∃ r, i = .jne (regByte r)) ∨ (∃ r, i = .jmp (regByte r)) := by
  cases i <;> simp [Instr.wellFormed, IsRegIndex] at h ⊢
  case add a b => exact ⟨exists_regByte h.1, exists_regByte h.2⟩
  case cmp a b => exact ⟨exists_regByte h.1, exists_regByte h.2⟩
  all_goals exact exists_regByte h

/-- On an ill-formed instruction exec raises a register fault whose byte is above 7, the same one in every state. -/
theorem exec_of_not_wellFormed {i : Instr} (h : i.wellFormed = false) :
    ∃ b : Byte, 7 < b.toNat ∧ ∀ s, exec i s = .next (s.raise (.registerIndexOutOfRange b)) := by
  cases i <;> simp [Instr.wellFormed, IsRegIndex] at h
  case add a b =>
    by_cases ha : a.toNat ≤ 7
    · obtain ⟨r, rfl⟩ := exists_regByte ha
      exact ⟨b, h ha, fun s => by simp [exec, execAdd, withReg_of_gt (h ha)]⟩
    · have ha' : 7 < a.toNat := by omega
      exact ⟨a, ha', fun s => by simp [exec, execAdd, withReg_of_gt ha']⟩
  case cmp a b =>
    by_cases ha : a.toNat ≤ 7
    · obtain ⟨r, rfl⟩ := exists_regByte ha
      exact ⟨b, h ha, fun s => by simp [exec, execCmp, withReg_of_gt (h ha)]⟩
    · have ha' : 7 < a.toNat := by omega
      exact ⟨a, ha', fun s => by simp [exec, execCmp, withReg_of_gt ha']⟩
  all_goals
    exact ⟨_, h, fun s => withReg_of_gt h s _⟩

/-- Every next state exec can answer from s, by instruction. -/
inductive Executes (s : State) : Instr → State → Prop where
  | ldi (r : RegIdx) (v : Byte) : Executes s (.ldi (regByte r) v) ((s.setReg r v).advance 3)
  | prn (r : RegIdx) : Executes s (.prn (regByte r)) ((s.emit (s.reg r)).advance 2)
  | mul (u v : Byte) : Executes s (.mul u v) ((s.setReg 0 (aluMul (s.reg 0) (s.reg 1))).advance 3)
  | push (r : RegIdx) : Executes s (.push (regByte r)) ((s.decSp.setTop (s.decSp.reg r)).advance 2)
  | pop (r : RegIdx) : Executes s (.pop (regByte r)) ((s.setReg r s.top).incSp.advance 2)
  | hlt : Executes s .hlt (s.halt.advance 1)
  | call (r : RegIdx) (h : s.pc.toNat + 2 < 256) :
      Executes s (.call (regByte r)) ((s.decSp.setTop (BitVec.ofNat 8 (s.pc.toNat + 2))).jump (s.decSp.reg r))
  | callFault (r : RegIdx) (h : 256 ≤ s.pc.toNat + 2) :
      Executes s (.call (regByte r)) (s.raise (.addressOutOfRange (s.pc.toNat + 2)))
  | ret : Executes s .ret (s.incSp.jump s.top)
  | add (q r : RegIdx) :
      Executes s (.add (regByte q) (regByte r)) ((s.setReg 0 (aluAdd (s.reg q) (s.reg r))).advance 3)
  | cmp (q r : RegIdx) :
      Executes s (.cmp (regByte q) (regByte r)) ((s.setFlags (aluCompare (s.reg q) (s.reg r))).advance 3)
  | jeq (r : RegIdx) : Executes s (.jeq (regByte r)) (jumpIf s.eqBit r s)
  | jne (r : RegIdx) : Executes s (.jne (regByte r)) (jumpIf (!s.eqBit) r s)
  | jmp (r : RegIdx) : Executes s (.jmp (regByte r)) (s.jump (s.reg r))
  | illFormed (i : Instr) (b : Byte) (h : i.wellFormed = false) (hb : 7 < b.toNat)
      (hexec : ∀ s', exec i s' = .next (s'.raise (.registerIndexOutOfRange b))) :
      Executes s i (s.raise (.registerIndexOutOfRange b))

/-- If exec answers a next state, it is one of those. -/
theorem executes_of_exec {s t : State} {i : Instr} (h : exec i s = .next t) : Executes s i t := by
  by_cases hwf : i.wellFormed = true
  · rcases wellFormed_cases hwf with ⟨r, v, rfl⟩ | ⟨r, rfl⟩ | ⟨u, v, rfl⟩ | ⟨r, rfl⟩ | ⟨r, rfl⟩ | rfl | ⟨r, rfl⟩ | rfl |
      ⟨q, r, rfl⟩ | ⟨q, r, rfl⟩ | ⟨r, rfl⟩ | ⟨r, rfl⟩ | ⟨r, rfl⟩
    · rw [exec_ldi] at h; cases h; exact .ldi r v
    · rw [exec_prn] at h; cases h; exact .prn r
    · rw [exec_mul] at h; cases h; exact .mul u v
    · rw [exec_push] at h; cases h; exact .push r
    · rw [exec_pop] at h; cases h; exact .pop r
    · rw [exec_hlt] at h; cases h; exact .hlt
    · by_cases hret : s.pc.toNat + 2 < 256
      · rw [exec_call s r hret] at h; cases h; exact .call r hret
      · rw [exec_call_fault s r (by omega)] at h; cases h; exact .callFault r (by omega)
    · rw [exec_ret] at h; cases h; exact .ret
    · rw [exec_add] at h; cases h; exact .add q r
    · rw [exec_cmp] at h; cases h; exact .cmp q r
    · rw [exec_jeq] at h; cases h; exact .jeq r
    · rw [exec_jne] at h; cases h; exact .jne r
    · rw [exec_jmp] at h; cases h; exact .jmp r
  · have hbad : i.wellFormed = false := by simpa using hwf
    obtain ⟨b, hb, hexec⟩ := exec_of_not_wellFormed hbad
    rw [hexec] at h; cases h; exact .illFormed i b hbad hb hexec

end Sys2Proof.Machine
end

