-- ==== Sys2Proof/Laws/Host.lean ====
section
/-! SUPPORT. How the loader and the assembler cut a text into lines and operands. -/

namespace Sys2Proof.Machine

/-- A text that begins with a line and its line feed. -/
theorem splitLines_append (line rest : List Char) (h : '\n' ∉ line) :
    splitLines (line ++ '\n' :: rest) = line :: splitLines rest := by
  induction line with
  | nil => simp [splitLines]
  | cons c cs ih =>
    simp at h
    simp [splitLines, Ne.symm h.1, ih h.2]

/-- A text of one line without its line feed. -/
theorem splitLines_single (line : List Char) (h : '\n' ∉ line) : splitLines line = [line] := by
  induction line with
  | nil => rfl
  | cons c cs ih =>
    simp at h
    simp [splitLines, Ne.symm h.1, ih h.2]

/-- An operand list that begins with an operand and its comma. -/
theorem splitCommas_append (part rest : List Char) (h : ',' ∉ part) :
    splitCommas (part ++ ',' :: rest) = part :: splitCommas rest := by
  induction part with
  | nil => simp [splitCommas]
  | cons c cs ih =>
    simp at h
    simp [splitCommas, Ne.symm h.1, ih h.2]

/-- An operand list of one operand. -/
theorem splitCommas_single (part : List Char) (h : ',' ∉ part) : splitCommas part = [part] := by
  induction part with
  | nil => rfl
  | cons c cs ih =>
    simp at h
    simp [splitCommas, Ne.symm h.1, ih h.2]

theorem dropWhile_isBlank_append (xs ys : List Char) (hne : xs ≠ []) (h : ∀ c ∈ xs, isBlank c = false) :
    (xs ++ ys).dropWhile isBlank = xs ++ ys := by
  cases xs with
  | nil => exact (hne rfl).elim
  | cons c cs => simp [h c (by simp)]

/-- Trimming a text that begins and ends with something other than white space changes nothing. -/
theorem trim_between (xs mid ys : List Char) (hx : xs ≠ []) (hy : ys ≠ []) (hbx : ∀ c ∈ xs, isBlank c = false)
    (hby : ∀ c ∈ ys, isBlank c = false) : trim (xs ++ mid ++ ys) = xs ++ mid ++ ys := by
  rw [trim, List.append_assoc, dropWhile_isBlank_append _ _ hx hbx, ← List.append_assoc, List.reverse_append,
    dropWhile_isBlank_append _ _ (by simpa using hy) (fun c hc => hby c (by simpa using hc))]
  simp

/-- A text with no white space in it is its own trimming. -/
theorem trim_eq_self (xs : List Char) (h : ∀ c ∈ xs, isBlank c = false) : trim xs = xs := by
  have hd : ∀ l : List Char, (∀ c ∈ l, isBlank c = false) → l.dropWhile isBlank = l := by
    intro l hl
    cases l with
    | nil => rfl
    | cons c cs => simpa using dropWhile_isBlank_append (c :: cs) [] (by simp) hl
  rw [trim, hd _ h, hd _ (fun c hc => h c (by simpa using hc)), List.reverse_reverse]

theorem dropWhile_isBlank_pad (pad xs : List Char) (h : ∀ c ∈ pad, isBlank c = true) :
    (pad ++ xs).dropWhile isBlank = xs.dropWhile isBlank := by
  induction pad with
  | nil => rfl
  | cons c cs ih => simp [h c (by simp), ih (fun d hd => h d (by simp [hd]))]

/-- Trimming takes the white space off both ends of a text that has none in it. -/
theorem trim_padded (before mid after : List Char) (hb : ∀ c ∈ before, isBlank c = true)
    (hm : ∀ c ∈ mid, isBlank c = false) (ha : ∀ c ∈ after, isBlank c = true) : trim (before ++ mid ++ after) = mid := by
  have hr : ∀ c ∈ after.reverse, isBlank c = true := fun c hc => ha c (by simpa using hc)
  rw [trim, List.append_assoc, dropWhile_isBlank_pad _ _ hb]
  cases mid with
  | nil =>
    have hd : after.dropWhile isBlank = [] := by rw [← List.append_nil after, dropWhile_isBlank_pad _ _ ha]; rfl
    simp [hd]
  | cons c cs =>
    rw [dropWhile_isBlank_append (c :: cs) _ (by simp) hm, List.reverse_append, dropWhile_isBlank_pad _ _ hr]
    simpa [trim, hm c (by simp)] using trim_eq_self (c :: cs) hm

/-- The loader reads a string of `0` and `1` as the numeral it is, after the digits already read. -/
theorem binaryValue_eq_binaryNumeral (acc : Nat) (digits : List Char) (h : ∀ c ∈ digits, c = '0' ∨ c = '1') :
    binaryValue acc digits = some (acc * 2 ^ digits.length + binaryNumeral digits) := by
  induction digits generalizing acc with
  | nil => simp [binaryValue, binaryNumeral]
  | cons c cs ih =>
    have hcs : ∀ d ∈ cs, d = '0' ∨ d = '1' := fun d hd => h d (by simp [hd])
    rcases h c (by simp) with rfl | rfl
    · simp [binaryValue, binaryNumeral, ih _ hcs, Nat.pow_succ, Nat.mul_comm, Nat.mul_assoc]
    · simp [binaryValue, binaryNumeral, ih _ hcs, Nat.pow_succ, Nat.add_mul, Nat.mul_comm, Nat.mul_assoc, Nat.add_assoc]

end Sys2Proof.Machine
end

