-- ==== Sys2Proof/Laws/Memory.lean ====
section
/-! SUPPORT. The laws of memory: read after write, the canonical form, placed bytes and byte runs. -/

namespace Sys2Proof.Machine

/-- The canonical form of a list with a first cell. -/
theorem wfCellsFrom_cons {lo b : Nat} {w : Byte} {rest : List Host.Cell} :
    wfCellsFrom lo ((b, w) :: rest) = true ↔ lo ≤ b ∧ b < 256 ∧ w ≠ 0x00 ∧ wfCellsFrom (b + 1) rest = true := by
  simp [wfCellsFrom, Config.memSize, Config.memReset, and_assoc]

/-- The byte at an address inside memory. -/
theorem State.byteAt?_of_lt (s : State) {a : Nat} (h : a < 256) :
    s.byteAt? a = some (Memory.read s.mem (BitVec.ofNat 8 a)) := by
  simp [State.byteAt?, Config.memSize, h]

/-- There is no byte at an address outside memory. -/
theorem State.byteAt?_of_ge (s : State) {a : Nat} (h : 256 ≤ a) : s.byteAt? a = none := by
  simp [State.byteAt?, Config.memSize, h]

/-! ## Read after write -/

theorem readCells_eq_default_of_lt {a : Nat} : ∀ {lo : Nat} {cells : List Host.Cell},
    wfCellsFrom lo cells = true → a < lo → readCells a cells = Config.memReset
  | _, [], _, _ => rfl
  | lo, (b, w) :: rest, h, ha => by
    simp only [wfCellsFrom, Bool.and_eq_true, decide_eq_true_eq] at h
    have hab : a ≠ b := by omega
    simp only [readCells, hab, if_false]
    exact readCells_eq_default_of_lt h.2 (by omega)

theorem readCells_writeCells_self (a : Nat) (v : Byte) : ∀ {lo : Nat} {cells : List Host.Cell},
    wfCellsFrom lo cells = true → readCells a (writeCells a v cells) = v
  | _, [], _ => by
    unfold writeCells; split <;> simp_all [readCells]
  | lo, (b, w) :: rest, h => by
    have h' := h
    simp only [wfCellsFrom, Bool.and_eq_true, decide_eq_true_eq] at h
    have hdef : a ≤ b → readCells a rest = Config.memReset := fun hle => readCells_eq_default_of_lt h.2 (by omega)
    unfold writeCells
    split
    · have hab : a ≠ b := by omega
      split <;> simp_all [readCells]
      exact hdef (by omega)
    · split
      · split <;> simp_all [readCells]
      · simp_all [readCells, readCells_writeCells_self a v h.2]

theorem readCells_writeCells_other {a c : Nat} (v : Byte) (hca : c ≠ a) : ∀ {lo : Nat} {cells : List Host.Cell},
    wfCellsFrom lo cells = true → readCells c (writeCells a v cells) = readCells c cells
  | _, [], _ => by
    unfold writeCells; split <;> simp [readCells, hca]
  | lo, (b, w) :: rest, h => by
    simp only [wfCellsFrom, Bool.and_eq_true, decide_eq_true_eq] at h
    unfold writeCells
    split
    · split <;> simp [readCells, hca]
    · split
      · rename_i hab; subst hab
        split <;> simp [readCells, hca]
      · simp only [readCells, readCells_writeCells_other v hca h.2]

theorem wfCellsFrom_mono {lo lo' : Nat} (hle : lo' ≤ lo) : ∀ {cells : List Host.Cell},
    wfCellsFrom lo cells = true → wfCellsFrom lo' cells = true
  | [], _ => rfl
  | (b, w) :: rest, h => by
    simp only [wfCellsFrom, Bool.and_eq_true, decide_eq_true_eq] at h ⊢
    exact ⟨⟨⟨by omega, h.1.1.2⟩, h.1.2⟩, h.2⟩

theorem wfCellsFrom_writeCells {a : Nat} (v : Byte) (ha : a < Config.memSize) : ∀ {lo : Nat} {cells : List Host.Cell},
    lo ≤ a → wfCellsFrom lo cells = true → wfCellsFrom lo (writeCells a v cells) = true
  | lo, [], hlo, _ => by
    unfold writeCells; split <;> simp_all [wfCellsFrom]
  | lo, (b, w) :: rest, hlo, h => by
    have h' := h
    simp only [wfCellsFrom, Bool.and_eq_true, decide_eq_true_eq] at h
    unfold writeCells
    split
    · split
      · exact h'
      · rename_i hab hv
        simp only [wfCellsFrom, Bool.and_eq_true, decide_eq_true_eq]
        exact ⟨⟨⟨hlo, ha⟩, hv⟩, ⟨⟨by omega, h.1.1.2⟩, h.1.2⟩, h.2⟩
    · split
      · rename_i hab; subst hab
        split
        · exact wfCellsFrom_mono (by omega) h.2
        · simp_all [wfCellsFrom]
      · simp only [wfCellsFrom, Bool.and_eq_true, decide_eq_true_eq]
        exact ⟨h.1, wfCellsFrom_writeCells v ha (by omega) h.2⟩

/-- The byte last written at an address is what a read of it returns (R51). -/
theorem Memory.read_write_self {m : Memory} (h : Memory.wf m = true) (a v : Byte) :
    Memory.read (Memory.write m a v) a = v :=
  readCells_writeCells_self a.toNat v h

/-- A write leaves every other address alone (R51). -/
theorem Memory.read_write_other {m : Memory} (h : Memory.wf m = true) {a b : Byte} (v : Byte) (hab : b ≠ a) :
    Memory.read (Memory.write m a v) b = Memory.read m b :=
  readCells_writeCells_other v (fun e => hab (BitVec.eq_of_toNat_eq e)) h

/-- A write keeps the canonical form. -/
theorem Memory.write_wf {m : Memory} (h : Memory.wf m = true) (a v : Byte) : Memory.wf (Memory.write m a v) = true :=
  wfCellsFrom_writeCells v (show a.toNat < 256 from a.isLt) (Nat.zero_le _) h

/-! ## Placed bytes and runs of bytes -/

/-- Placing bytes keeps the canonical form. -/
theorem Memory.place_wf : ∀ (bytes : List Byte) {m : Memory} (addr : Nat),
    Memory.wf m = true → Memory.wf (Memory.place m addr bytes) = true
  | [], _, _, h => h
  | b :: rest, m, addr, h => by
    unfold Memory.place
    split
    · exact Memory.place_wf rest (addr + 1) (Memory.write_wf h _ b)
    · exact h

/-- After bytes are placed from addr, an address among them reads its byte and any other reads as before. -/
theorem Memory.read_place : ∀ (bytes : List Byte) {m : Memory} (addr : Nat) (a : Byte), Memory.wf m = true →
    Memory.read (Memory.place m addr bytes) a =
      if addr ≤ a.toNat then (bytes[a.toNat - addr]?).getD (Memory.read m a) else Memory.read m a
  | [], m, addr, a, _ => by simp [Memory.place]
  | b :: rest, m, addr, a, h => by
    have ha : a.toNat < 256 := a.isLt
    unfold Memory.place
    split
    · rename_i hlt
      simp only [Config.memSize] at hlt
      rw [Memory.read_place rest (addr + 1) a (Memory.write_wf h _ b)]
      by_cases heq : a.toNat = addr
      · have : a = BitVec.ofNat 8 addr := by rw [← heq]; simp
        subst this
        simp [Nat.mod_eq_of_lt hlt, Memory.read_write_self h]
      · have hne : a ≠ BitVec.ofNat 8 addr := by
          rintro rfl
          exact heq (by simp [Nat.mod_eq_of_lt hlt])
        rw [Memory.read_write_other h b hne]
        by_cases hle : addr + 1 ≤ a.toNat
        · have e : a.toNat - addr = (a.toNat - (addr + 1)) + 1 := by omega
          simp [hle, show addr ≤ a.toNat by omega, e]
        · simp [hle, show ¬ addr ≤ a.toNat by omega]
    · rename_i hge
      simp only [Config.memSize] at hge
      simp [show ¬ addr ≤ a.toNat by omega]

/-- Byte k of a run is the byte at address addr + k, as long as that lies inside memory. -/
theorem Memory.bytesFrom_getElem? (m : Memory) : ∀ (n addr k : Nat), (Memory.bytesFrom m addr n)[k]? =
    if k < n ∧ addr + k < Config.memSize then some (Memory.read m (BitVec.ofNat 8 (addr + k))) else none
  | 0, _, _ => by simp [Memory.bytesFrom]
  | n + 1, addr, k => by
    unfold Memory.bytesFrom
    split
    · cases k with
      | zero => simp_all
      | succ k =>
        rw [List.getElem?_cons_succ, Memory.bytesFrom_getElem? m n (addr + 1) k]
        simp [Nat.add_right_comm, Nat.add_assoc]
    · rw [if_neg (by omega)]; rfl

@[simp] theorem Memory.read_nil (a : Byte) : Memory.read [] a = 0x00 := rfl

end Sys2Proof.Machine
end

