-- ==== Sys2Proof/Laws/PerInstr.lean ====
section
/-! SUPPORT. The family DispatchRow: each instruction's encoding begins with the opcode of a row of the dispatch table
that has its width and builds it from its operand bytes. -/

namespace Sys2Proof.Laws.DispatchRow

/-- The instruction's opcode has a row; the row's width is the length of the encoding; and the row builds the instruction
from the operand bytes that follow the opcode. -/
def Statement (i : Instr) : Prop :=
  ∃ row, dispatch? i.opcode = some row ∧ (encode i).length = row.format.width ∧
    row.build (i.operands[0]?.getD 0) (i.operands[1]?.getD 0) = i

theorem ldi (a imm8 : Byte) : Statement (.ldi a imm8) := ⟨_, rfl, rfl, rfl⟩
theorem prn (a : Byte) : Statement (.prn a) := ⟨_, rfl, rfl, rfl⟩
theorem mul (u v : Byte) : Statement (.mul u v) := ⟨_, rfl, rfl, rfl⟩
theorem push (a : Byte) : Statement (.push a) := ⟨_, rfl, rfl, rfl⟩
theorem pop (a : Byte) : Statement (.pop a) := ⟨_, rfl, rfl, rfl⟩
theorem hlt : Statement .hlt := ⟨_, rfl, rfl, rfl⟩
theorem call (a : Byte) : Statement (.call a) := ⟨_, rfl, rfl, rfl⟩
theorem ret : Statement .ret := ⟨_, rfl, rfl, rfl⟩
theorem add (a b : Byte) : Statement (.add a b) := ⟨_, rfl, rfl, rfl⟩
theorem cmp (a b : Byte) : Statement (.cmp a b) := ⟨_, rfl, rfl, rfl⟩
theorem jeq (a : Byte) : Statement (.jeq a) := ⟨_, rfl, rfl, rfl⟩
theorem jne (a : Byte) : Statement (.jne a) := ⟨_, rfl, rfl, rfl⟩
theorem jmp (a : Byte) : Statement (.jmp a) := ⟨_, rfl, rfl, rfl⟩

end Sys2Proof.Laws.DispatchRow
end

