-- ==== Sys2Proof/Laws/Step.lean ====
section
/-! SUPPORT. What fetching and a step can do. -/

namespace Sys2Proof.Machine

/-- All that a step can do when it answers a next state. -/
theorem step_next_cases {s t : State} (h : step s = .next t) : s.run = .running ∧
    ((∃ e, decode s.fetchWindow = .error e ∧ t = s.raise (decodeFault s.pc e)) ∨
      ∃ i rest, decode s.fetchWindow = .ok (i, rest) ∧ exec i s = .next t) := by
  unfold step at h
  split at h
  · simp at h
  · rename_i hrun
    refine ⟨hrun, ?_⟩
    split at h
    · rename_i e he
      exact .inl ⟨e, he, by simpa using h.symm⟩
    · rename_i i rest hok
      exact .inr ⟨i, rest, hok, h⟩

/-- A RUNNING engine that cannot decode raises the decoder's fault. -/
theorem step_of_decode_error {s : State} (hrun : s.run = .running) {e : DecodeError}
    (h : decode s.fetchWindow = .error e) : step s = .next (s.raise (decodeFault s.pc e)) := by
  simp [step, hrun, h]

/-- Byte k of the fetch window is the memory byte at pc + k. -/
theorem State.fetchWindow_getElem? (s : State) (k : Nat) :
    s.fetchWindow[k]? = if k < 3 then s.byteAt? (s.pc.toNat + k) else none := by
  simp only [State.fetchWindow, Memory.bytesFrom_getElem?, State.byteAt?]
  by_cases hk : k < 3 <;> simp [hk]

/-- Up to three bytes that stand at pc begin the fetch window. -/
theorem State.BytesAtPc.window_append {s : State} {bytes : List Byte} (h : s.BytesAtPc bytes) (hlen : bytes.length ≤ 3) :
    ∃ rest, s.fetchWindow = bytes ++ rest := by
  have hp : bytes <+: s.fetchWindow := by
    refine List.prefix_iff_getElem?.2 fun k hk => ?_
    rw [s.fetchWindow_getElem?, if_pos (by omega), h k _ (List.getElem?_eq_getElem hk)]
  obtain ⟨rest, hrest⟩ := hp
  exact ⟨rest, hrest.symm⟩

/-- The bytes at the head of the fetch window stand at pc. -/
theorem State.bytesAtPc_of_window (s : State) {bytes rest : List Byte} (h : s.fetchWindow = bytes ++ rest) :
    s.BytesAtPc bytes := by
  intro k b hb
  have hk : s.fetchWindow[k]? = some b := by
    rw [h, List.getElem?_append_left (List.getElem?_eq_some_iff.1 hb).1, hb]
  rw [s.fetchWindow_getElem?] at hk
  split at hk
  · exact hk
  · simp at hk

/-- Up to three bytes stand at pc exactly when the fetch window begins with them. -/
theorem State.bytesAtPc_iff (s : State) {bytes : List Byte} (hlen : bytes.length ≤ 3) :
    s.BytesAtPc bytes ↔ s.fetchWindow.take bytes.length = bytes := by
  constructor
  · intro h
    obtain ⟨rest, hrest⟩ := h.window_append hlen
    simp [hrest]
  · intro h
    exact s.bytesAtPc_of_window (rest := s.fetchWindow.drop bytes.length)
      (by conv_lhs => rw [← List.take_append_drop bytes.length s.fetchWindow, h])

/-- The window is cut short only by the end of memory. -/
theorem State.fetchWindow_length (s : State) : s.fetchWindow.length = min 3 (256 - s.pc.toNat) := by
  have h : ∀ k, s.fetchWindow.length ≤ k ↔ min 3 (256 - s.pc.toNat) ≤ k := by
    intro k
    rw [← List.getElem?_eq_none_iff, s.fetchWindow_getElem?]
    by_cases hk : k < 3
    · simp only [hk, if_true, State.byteAt?, Config.memSize]
      by_cases hm : s.pc.toNat + k < 256 <;> simp [hm] <;> omega
    · simp only [hk, if_false, true_iff]; omega
  have h1 := h (min 3 (256 - s.pc.toNat))
  have h2 := h s.fetchWindow.length
  omega

/-- The illegal opcodes of R75 are the bytes with no row in the dispatch table. -/
theorem dispatch?_eq_none_iff (opcode : Byte) : dispatch? opcode = none ↔ IllegalOpcode opcode := by
  unfold IllegalOpcode
  revert opcode
  decide

end Sys2Proof.Machine
end

