-- ==== Sys2Proof/Tests/Slice0.lean ====
section
/-! SUPPORT. Tests: expected values are the spec's own (95_test_vectors.md, named V-… and S…; the encodings of R71 and R73)
or counted by hand from a rule. Then a witness for the hypotheses of each statement that has some. -/

namespace Sys2Proof.Tests

open Sys2Proof.Machine

/-! ## Helpers -/

/-- The reset state with pc set and bytes placed there. -/
def at' (pc : PC) (bytes : List Byte) : State :=
  { State.reset with pc := pc, mem := Memory.place [] pc.toNat bytes }

/-- The state with a byte of memory written. -/
def poke (s : State) (a v : Byte) : State := { s with mem := Memory.write s.mem a v }

/-- The state after one step, if there is one. -/
def after (s : State) : Option State :=
  match step s with
  | .next t => some t
  | _ => none

/-- What a step leaves in run, pc and the fault record. -/
def ending (s : State) : Option (RunState × PC × Option FaultRecord) :=
  (after s).map fun t => (t.run, t.pc, t.fault)

/-- The ending of a step that raises a fault at this pc (R204). -/
def faulted (cause : FaultCause) (pc : PC) : Option (RunState × PC × Option FaultRecord) :=
  some (.halted, pc, some ⟨cause, pc⟩)

/-! ## WellFormed: one ill-formed term for each check, and legal terms at the edges (R72, R76) -/

theorem test_wf_ldi : (Instr.ldi 8 0).wellFormed = false := by decide
theorem test_wf_prn : (Instr.prn 200).wellFormed = false := by decide
theorem test_wf_push : (Instr.push 8).wellFormed = false := by decide
theorem test_wf_pop : (Instr.pop 255).wellFormed = false := by decide
theorem test_wf_call : (Instr.call 8).wellFormed = false := by decide
theorem test_wf_jeq : (Instr.jeq 9).wellFormed = false := by decide
theorem test_wf_jne : (Instr.jne 8).wellFormed = false := by decide
theorem test_wf_jmp : (Instr.jmp 128).wellFormed = false := by decide
theorem test_wf_add_first : (Instr.add 8 0).wellFormed = false := by decide
theorem test_wf_add_second : (Instr.add 7 8).wellFormed = false := by decide
theorem test_wf_cmp_first : (Instr.cmp 8 0).wellFormed = false := by decide
theorem test_wf_cmp_second : (Instr.cmp 0 8).wellFormed = false := by decide
theorem test_wf_legal : (Instr.ldi 7 255).wellFormed ∧ (Instr.mul 255 255).wellFormed ∧ (Instr.add 7 7).wellFormed := by decide

/-! ## Decoding: every constructor from bytes written out from R71 and R73 -/

theorem test_decode_ldi : decode [0b10000010, 0b00000011, 0b11111111] = .ok (.ldi 3 255, []) := by decide
theorem test_decode_prn : decode [0b01000111, 0b00000110, 0x99] = .ok (.prn 6, [0x99]) := by decide
theorem test_decode_mul : decode [0b10100010, 0b11111111, 0b00000001] = .ok (.mul 255 1, []) := by decide
theorem test_decode_push : decode [0b01000101, 0b00000111] = .ok (.push 7, []) := by decide
theorem test_decode_pop : decode [0b01000110, 0b00000010] = .ok (.pop 2, []) := by decide
theorem test_decode_hlt : decode [0b00000001, 0x82] = .ok (.hlt, [0x82]) := by decide
theorem test_decode_call : decode [0b01010000, 0b00000001] = .ok (.call 1, []) := by decide
theorem test_decode_ret : decode [0b00010001] = .ok (.ret, []) := by decide
theorem test_decode_add : decode [0b10100000, 0b00000010, 0b00000011] = .ok (.add 2 3, []) := by decide
theorem test_decode_cmp : decode [0b10100111, 0b00000000, 0b00000001] = .ok (.cmp 0 1, []) := by decide
theorem test_decode_jeq : decode [0b01010101, 0b00000010] = .ok (.jeq 2, []) := by decide
theorem test_decode_jne : decode [0b01010110, 0b00000011] = .ok (.jne 3, []) := by decide
theorem test_decode_jmp : decode [0b01010100, 0b00000100] = .ok (.jmp 4, []) := by decide

/-- Zero memory is an illegal opcode (R75). -/
theorem test_decode_zero : decode [0, 0, 0] = .error (.unknownOpcode 0) := by decide
/-- The register field is not masked (R72). -/
theorem test_decode_unmasked : decode [0x45, 0x08] = .error (.registerIndexOutOfRange 8) := by decide
theorem test_decode_short : decode [0x82, 9] = .error (.missingByte 2) := by decide
/-- A table word numbers its bits from the first byte: LDI R0,8 and PRN R0. -/
theorem test_table_word :
    decodeTableWord 24 0x080082 = some (.ldi 0 8) ∧ decodeTableWord 16 0x0047 = some (.prn 0) ∧
    decodeTableWord 8 0x01 = some .hlt := by decide

/-! ## Steps: at most two per instruction -/

/-- V-LDI-2. -/
theorem test_ldi : (after (at' 0x10 [0x82, 3, 0xFF])).map (fun t => (t.reg 3, t.pc)) = some (0xFF, 0x13) := by decide
/-- V-LDI-7: the operand fetch comes before the register check. -/
theorem test_ldi_past_end : ending (at' 0xFE [0x82, 9]) = faulted (.addressOutOfRange 0x100) 0xFE := by decide
/-- V-PUSH-2: PUSH R7 stores the decremented SP. -/
theorem test_push_sp : (after (at' 0x20 [0x45, 7])).map (fun t => (t.sp, Memory.read t.mem 0xF3, t.pc)) =
    some (0xF3, 0xF3, 0x22) := by decide
/-- V-PUSH-3: SP wraps. -/
theorem test_push_wrap : (after (((at' 0x20 [0x45, 1]).setReg 1 0xAB).setReg 7 0)).map
    (fun t => (t.sp, Memory.read t.mem 0xFF)) = some (0xFF, 0xAB) := by decide
/-- V-POP-2: POP R7 leaves the popped value plus 1. -/
theorem test_pop_sp : (after ((poke (at' 0x20 [0x46, 7]) 0xF3 0x48).setReg 7 0xF3)).map (fun t => (t.sp, t.pc)) =
    some (0x49, 0x22) := by decide
/-- V-POP-3. -/
theorem test_pop_wrap : (after ((poke (at' 0x20 [0x46, 1]) 0xFF 0x11).setReg 7 0xFF)).map (fun t => (t.reg 1, t.sp)) =
    some (0x11, 0) := by decide
/-- V-MUL-3. -/
theorem test_mul_wrap : (after (((at' 0 [0xA2, 0, 1]).setReg 0 255).setReg 1 255)).map (fun t => (t.reg 0, t.pc)) =
    some (0x01, 3) := by decide
/-- V-MUL-4: operand bytes ignored and not checked. -/
theorem test_mul_ignores : (after ((((at' 0 [0xA2, 0xFF, 0xFF]).setReg 0 3).setReg 1 7).setReg 5 9)).map
    (fun t => t.reg 0) = some 21 := by decide
/-- V-ADD-2. -/
theorem test_add_wrap : (after (((at' 0 [0xA0, 1, 2]).setReg 1 200).setReg 2 100)).map
    (fun t => (t.reg 0, t.reg 1, t.reg 2)) = some (0x2C, 200, 100) := by decide
/-- V-ADD-6: b1 is reported before b2. -/
theorem test_add_fields : ending (at' 0 [0xA0, 8, 9]) = faulted (.registerIndexOutOfRange 8) 0 := by decide
/-- V-CMP-5: unsigned comparison. -/
theorem test_cmp_unsigned : (after (((at' 0 [0xA7, 0, 1]).setReg 0 0x80).setReg 1 0x7F)).map (fun t => (t.fl, t.pc)) =
    some (0x02, 3) := by decide
/-- V-CMP-7 (FLAGS_IN_R4 true). -/
theorem test_cmp_alias : (after { at' 0 [0xA7, 0, 1] with flagsInR4 := true }).map (fun t => (t.reg 4, t.fl)) =
    some (0x01, 0x00) := by decide
/-- V-CALL-2: CALL R7 jumps to the decremented SP. -/
theorem test_call_sp : (after (at' 0x10 [0x50, 7])).map (fun t => (Memory.read t.mem 0xF3, t.sp, t.pc)) =
    some (0x12, 0xF3, 0xF3) := by decide
/-- V-CALL-4: the return address 256 fits in no byte; nothing is pushed. -/
theorem test_call_at_end : ending (at' 0xFE [0x50, 0]) = faulted (.addressOutOfRange 0x100) 0xFE ∧
    (after (at' 0xFE [0x50, 0])).map (fun t => (t.sp, Memory.read t.mem 0xF3)) = some (0xF4, 0) := by decide
/-- V-RET-1. -/
theorem test_ret : (after ((poke (at' 0x40 [0x11]) 0xF3 0x12).setReg 7 0xF3)).map (fun t => (t.pc, t.sp)) =
    some (0x12, 0xF4) := by decide
/-- V-RET-3. -/
theorem test_ret_wrap : (after ((poke (at' 0x40 [0x11]) 0xFF 0x30).setReg 7 0xFF)).map (fun t => (t.pc, t.sp)) =
    some (0x30, 0) := by decide
/-- V-JEQ-4: the field is checked though the jump is not taken. -/
theorem test_jeq_field : ending { at' 0x30 [0x55, 9] with fl := 4 } = faulted (.registerIndexOutOfRange 9) 0x30 := by
  decide
/-- V-JEQ-5 (FLAGS_IN_R4 true). -/
theorem test_jeq_alias : (after { ((at' 0x10 [0x55, 2]).setReg 2 0x40).setReg 4 3 with flagsInR4 := true }).map
    (fun t => t.pc) = some 0x40 := by decide
/-- V-JNE-2. -/
theorem test_jne_falls : (after { (at' 0x30 [0x56, 3]).setReg 3 0x30 with fl := 1 }).map (fun t => t.pc) = some 0x32 := by
  decide
/-- V-JNE-3. -/
theorem test_jne_reset : (after ((at' 0x30 [0x56, 3]).setReg 3 0x50)).map (fun t => t.pc) = some 0x50 := by decide
/-- V-JMP-1. -/
theorem test_jmp : (after ((at' 0x30 [0x54, 4]).setReg 4 0x0A)).map (fun t => t.pc) = some 0x0A := by decide
/-- V-JMP-3. -/
theorem test_jmp_past_end : ending (at' 0xFF [0x54]) = faulted (.addressOutOfRange 0x100) 0xFF := by decide
/-- V-PRN-3. -/
theorem test_prn : (after (at' 0 [0x47, 7])).map (fun t => (t.out, t.pc)) = some ([244], 2) := by decide
/-- V-PRN-4. -/
theorem test_prn_field : ending (at' 0 [0x47, 0xC8]) = faulted (.registerIndexOutOfRange 0xC8) 0 := by decide
/-- V-HLT-1. -/
theorem test_hlt : ending (at' 0x0B [0x01]) = some (.halted, 0x0C, none) := by decide
/-- V-HLT-2. -/
theorem test_hlt_at_end : ending (at' 0xFF [0x01]) = some (.halted, 0x100, none) := by decide

/-! ## Engine -/

/-- V-ENG-1. -/
theorem test_fetch_past_memory : ending (at' 0x100 []) = faulted (.addressOutOfRange 0x100) 0x100 := by decide
/-- V-ENG-2: decode comes before the operand fetch. -/
theorem test_unknown_at_end : ending (at' 0xFF [0xFF]) = faulted (.unknownOpcode 0xFF) 0xFF := by decide
/-- S2: an empty image. -/
theorem test_unknown_at_reset : ending State.reset = faulted (.unknownOpcode 0) 0 := by decide
/-- V-ENG-4: a HALTED engine has no step. -/
theorem test_halted : after { at' 0 [0x01] with run := .halted } = none := by decide
/-- A table word placed at reset runs in the next step. -/
theorem test_placed_word : (after (State.reset.withFetchWord 24 0x080082)).map (fun t => (t.reg 0, t.pc)) =
    some (8, 3) := by decide
/-- A write of the reset value unlists the cell. -/
theorem test_memory_canonical : Memory.write (Memory.write [] 0xF3 5) 0xF3 0 = [] := by decide

/-! ## Host side -/

/-- Comments, blank lines and a short literal (R240). -/
theorem test_parse_image : parseImage ['1', '0', '0', '0', '0', '0', '1', '0', ' ', '#', 'x', '\n', '\n', ' ', '1', '0', '1'] =
    .ok [0x82, 5] := by decide
theorem test_parse_malformed : parseImage ['1', '2', '\n'] = .error .malformedLine := by decide
theorem test_parse_too_large : parseImage ['1', '0', '0', '0', '0', '0', '0', '0', '0'] = .error .literalTooLarge := by decide
/-- V-PRN-1: the host prints 72 and a newline. -/
theorem test_render : renderOutput [72, 0] = ['7', '2', '\n', '0', '\n'] := by decide
/-- R221. -/
theorem test_exit_status :
    (State.reset.halt.status.exitStatus, (State.reset.raise (.unknownOpcode 0)).status.exitStatus,
      State.reset.status.exitStatus) = (some 0, some 1, none) := by decide
/-- The trace of an instruction at the last address shows two absent bytes (R222). -/
theorem test_trace : (at' 0xFF [0x01]).trace.bytes = [some 1, none, none] ∧ hexByte 0xF4 = ['F', '4'] := by decide
/-- R78: bare MUL, explicit bytes, SP, and the three bases. -/
theorem test_assemble : assemble ['M', 'U', 'L'] = some [0xA2, 0, 1] ∧ assemble ['M', 'U', 'L', ' ', '9', ',', '7'] = some [0xA2, 9, 7] ∧
    assemble ['P', 'U', 'S', 'H', ' ', 'S', 'P'] = some [0x45, 7] := by decide
theorem test_assemble_bases : assemble ['L', 'D', 'I', ' ', 'R', '0', ',', '8'] = some [0x82, 0, 8] ∧
    assemble ['L', 'D', 'I', ' ', 'R', '1', ',', ' ', '0', 'x', 'f', 'F'] = some [0x82, 1, 255] ∧
    assemble ['L', 'D', 'I', ' ', 'R', '2', ',', '0', 'b', '1', '1'] = some [0x82, 2, 3] := by decide

/-! ## Witnesses: the hypotheses of each statement are met, together, by these -/

/-- The hypotheses of StepRuns at these bytes, of OperandFetchFaults for k = 1 at 0xFF and, at width 3, k = 2 at 0xFE. -/
def FormsHaveWitnesses (bytes : List Byte) : Prop :=
  ((at' 0 bytes).run = .running ∧ (at' 0 bytes).BytesAtPc bytes) ∧
  (2 ≤ bytes.length → (at' 0xFF (bytes.take 1)).byteAt? 0xFF = bytes[0]? ∧ (0xFF : PC).toNat + 1 = 256) ∧
  (3 ≤ bytes.length → (at' 0xFE (bytes.take 2)).byteAt? 0xFE = bytes[0]? ∧ (0xFE : PC).toNat + 2 = 256)

theorem witness_ldi : FormsHaveWitnesses [0x82, 7, 255] :=
  ⟨⟨rfl, (State.bytesAtPc_iff _ (by decide)).2 (by decide)⟩, by decide, by decide⟩
theorem witness_ldi_alias : { State.reset with flagsInR4 := true }.flagsInR4 = true := rfl
theorem witness_push : FormsHaveWitnesses [0x45, 7] ∧ Memory.wf (at' 0 [0x45, 7]).mem = true :=
  ⟨⟨⟨rfl, (State.bytesAtPc_iff _ (by decide)).2 (by decide)⟩, by decide, by decide⟩, by decide⟩
theorem witness_pop : FormsHaveWitnesses [0x46, 7] :=
  ⟨⟨rfl, (State.bytesAtPc_iff _ (by decide)).2 (by decide)⟩, by decide, by decide⟩
theorem witness_mul : FormsHaveWitnesses [0xA2, 255, 255] :=
  ⟨⟨rfl, (State.bytesAtPc_iff _ (by decide)).2 (by decide)⟩, by decide, by decide⟩
theorem witness_add : FormsHaveWitnesses [0xA0, 0, 7] :=
  ⟨⟨rfl, (State.bytesAtPc_iff _ (by decide)).2 (by decide)⟩, by decide, by decide⟩
/-- The three orders of two registers that CMP tells apart. -/
theorem witness_cmp : FormsHaveWitnesses [0xA7, 0, 7] ∧ (State.reset.reg 0).toNat < (State.reset.reg 7).toNat ∧
    (State.reset.reg 7).toNat > (State.reset.reg 0).toNat ∧ State.reset.reg 0 = State.reset.reg 1 :=
  ⟨⟨⟨rfl, (State.bytesAtPc_iff _ (by decide)).2 (by decide)⟩, by decide, by decide⟩, by decide⟩
/-- CALL at 253, the last that returns, and at 254. -/
theorem witness_call : FormsHaveWitnesses [0x50, 7] ∧
    (Memory.wf (at' 253 [0x50, 7]).mem = true ∧ (at' 253 [0x50, 7]).pc.toNat ≤ 253) ∧ 254 ≤ (at' 254 [0x50, 7]).pc.toNat :=
  ⟨⟨⟨rfl, (State.bytesAtPc_iff _ (by decide)).2 (by decide)⟩, by decide, by decide⟩, by decide⟩
theorem witness_ret : FormsHaveWitnesses [0x11] :=
  ⟨⟨rfl, (State.bytesAtPc_iff _ (by decide)).2 (by decide)⟩, by decide, by decide⟩
theorem witness_jeq : FormsHaveWitnesses [0x55, 7] :=
  ⟨⟨rfl, (State.bytesAtPc_iff _ (by decide)).2 (by decide)⟩, by decide, by decide⟩
theorem witness_jne : FormsHaveWitnesses [0x56, 7] :=
  ⟨⟨rfl, (State.bytesAtPc_iff _ (by decide)).2 (by decide)⟩, by decide, by decide⟩
/-- JMP R7 at 0xF4, where SP points after reset: a jump to itself. -/
theorem witness_jmp : FormsHaveWitnesses [0x54, 7] ∧ (at' 0xF4 [0x54, 7]).BytesAtPc [0x54, regByte 7] ∧
    ((at' 0xF4 [0x54, 7]).reg 7).setWidth 9 = (at' 0xF4 [0x54, 7]).pc :=
  ⟨⟨⟨rfl, (State.bytesAtPc_iff _ (by decide)).2 (by decide)⟩, by decide, by decide⟩,
    (State.bytesAtPc_iff _ (by decide)).2 (by decide), by decide⟩
theorem witness_prn : FormsHaveWitnesses [0x47, 7] :=
  ⟨⟨rfl, (State.bytesAtPc_iff _ (by decide)).2 (by decide)⟩, by decide, by decide⟩
theorem witness_hlt : FormsHaveWitnesses [0x01] ∧ (at' 255 [0x01]).pc.toNat ≤ 255 ∧
    ∃ t, exec .hlt (at' 255 [0x01]) = .next t ∧ step (at' 255 [0x01]) = .next t ∧ t.EndedCleanly :=
  ⟨⟨⟨rfl, (State.bytesAtPc_iff _ (by decide)).2 (by decide)⟩, by decide, by decide⟩, by decide, _, rfl, rfl, rfl, rfl⟩

/-- FirstFieldChecked at widths 2 and 3: the boundary byte 8 in b1, beside a bad b2. -/
theorem witness_first_field : (at' 0 [0x45, 8]).BytesAtPc [0x45, 8] ∧ (at' 0 [0xA0, 8, 9]).BytesAtPc [0xA0, 8, 9] ∧
    7 < (8 : Byte).toNat :=
  ⟨(State.bytesAtPc_iff _ (by decide)).2 (by decide), (State.bytesAtPc_iff _ (by decide)).2 (by decide), by decide⟩
/-- SecondFieldChecked: 7 in b1 and 8 in b2. -/
theorem witness_second_field : (at' 0 [0xA7, 7, 8]).BytesAtPc [0xA7, 7, 8] ∧ (7 : Byte).toNat ≤ 7 ∧ 7 < (8 : Byte).toNat :=
  ⟨(State.bytesAtPc_iff _ (by decide)).2 (by decide), by decide⟩

theorem witness_DecodeInvertsEncode : (Instr.add 7 0).wellFormed = true := by decide
theorem witness_EncodeInvertsDecode : decode [0xA0, 7, 0, 0x82] = .ok (.add 7 0, [0x82]) := by decide
theorem witness_AssemblyTextReadsBack : (Instr.ldi 7 255).wellFormed = true := by decide
theorem witness_StepRunsDecodedInstruction :
    (at' 0 [0xA0, 7, 0]).run = .running ∧ decode (at' 0 [0xA0, 7, 0]).fetchWindow = .ok (.add 7 0, []) := by decide
theorem reset_inv : State.reset.Inv :=
  ⟨rfl, by decide, fun _ => .inl rfl, fun _ => rfl, fun h => (h rfl).elim, fun _ h => by cases h⟩
/-- A state at pc 256 that meets the invariant, and one at 255. -/
theorem witness_FetchReadsOpcodeOrFaults : (at' 256 []).Inv ∧ (at' 256 []).run = .running ∧ 255 < (at' 256 []).pc.toNat ∧
    (at' 255 []).pc.toNat ≤ 255 :=
  ⟨⟨rfl, by decide, fun _ => .inl rfl, fun _ => rfl, fun h => (h rfl).elim, fun _ h => by cases h⟩, rfl, by decide, by decide⟩
/-- An illegal opcode at each end of a range of R75, and a legal one between two ranges. -/
theorem witness_UnknownOpcode : (at' 0 [0xFF]).run = .running ∧ (at' 0 [0xFF]).byteAt? 0 = some 0xFF ∧
    IllegalOpcode 0xFF ∧ IllegalOpcode 0x02 ∧ IllegalOpcode 0x10 ∧ ¬ IllegalOpcode 0x11 := by
  refine ⟨rfl, by decide, ?_⟩
  simp [IllegalOpcode]
theorem witness_IllFormed : (Instr.cmp 7 8).wellFormed = false := by decide
/-- One state for each of the four clauses of FirstFailingCheckIsReported. -/
theorem witness_FirstFailingCheckIsReported :
    (at' 255 [0x00]).BytesAtPc [0x00] ∧ IllegalOpcode 0x00 ∧ (at' 254 [0x82, 9]).BytesAtPc [0x82, 9] ∧
    (at' 0 [0xA7, 8, 255]).BytesAtPc [0xA7, 8, 255] ∧ (at' 254 [0x50, 8]).BytesAtPc [0x50, 8] :=
  ⟨(State.bytesAtPc_iff _ (by decide)).2 (by decide), by simp [IllegalOpcode],
    (State.bytesAtPc_iff _ (by decide)).2 (by decide), (State.bytesAtPc_iff _ (by decide)).2 (by decide),
    (State.bytesAtPc_iff _ (by decide)).2 (by decide)⟩
theorem witness_OnlyHaltedEngineHasNoStep : State.reset.run = .running ∧ State.reset.halt.Ended ∧
    Reaches State.reset.halt State.reset.halt := ⟨rfl, rfl, .refl _⟩
/-- A step that leaves a fault record where there was none. -/
theorem witness_FaultsArePrecise : ∃ t, step State.reset = .next t ∧ State.reset.fault = none ∧
    t.fault = some ⟨.unknownOpcode 0, 0⟩ := ⟨_, rfl, rfl, by decide⟩
theorem witness_RunStateChanges : (∃ t, step (at' 0 [0x01]) = .next t) ∧ (at' 0 [0x01]).fault = none ∧
    (at' 0 [0x01]).halt.run = .halted ∧ ∃ t, exec .ret { at' 0 [0x11] with run := .running } = .next t :=
  ⟨⟨_, rfl⟩, rfl, rfl, ⟨_, rfl⟩⟩
/-- A CALL at 253, and SP at 0. -/
theorem witness_OverflowAndStackWrapNeverHalt : (Instr.call 0).wellFormed = true ∧ Instr.call 0 ≠ .hlt ∧
    (at' 253 [0x50, 0]).pc.toNat + 2 ≤ 255 ∧ ((at' 253 [0x50, 0]).setReg 7 0).sp = 0 := by decide
theorem witness_OnlyCmpWritesFlags : ∃ t, step (at' 0 [0xA7, 0, 0]) = .next t ∧ t.fl ≠ (at' 0 [0xA7, 0, 0]).fl :=
  ⟨_, rfl, by decide⟩
theorem witness_OnlyTheEqualBitIsRead : State.reset.flagsInR4 = false ∧ (0xF6 : Byte).getLsbD 0 = State.reset.fl.getLsbD 0 ∧
    (∃ t, exec (.jeq 7) State.reset = .next t) ∧ (∀ a b, Instr.jeq 7 ≠ .cmp a b) ∧
    (∃ t, exec (.cmp 0 7) State.reset = .next t) ∧ (Instr.cmp 0 7).wellFormed = true ∧
    (∃ t, exec (.cmp 8 7) State.reset = .next t) ∧ (Instr.cmp 8 7).wellFormed = false :=
  ⟨rfl, by decide, ⟨_, rfl⟩, by simp, ⟨_, rfl⟩, by decide, ⟨_, rfl⟩, by decide⟩
theorem witness_AliasedFlags : ∃ t, exec (.cmp 0 0) { State.reset with flagsInR4 := true } = .next t ∧ t.flags = 1 :=
  ⟨_, rfl, by decide⟩
theorem witness_FlagsParameterIsConstant : ∃ t, Reaches (at' 0 [0x01]) t ∧ t.run = .halted :=
  ⟨_, .tail (.refl _) rfl, by decide⟩
theorem witness_OnlyPushAndCallWriteMemory : Memory.wf (at' 0 [0x45, 7]).mem = true ∧ ∃ t, step (at' 0 [0x45, 7]) = .next t ∧
    Memory.read t.mem 0xF3 ≠ Memory.read (at' 0 [0x45, 7]).mem 0xF3 := ⟨by decide, _, rfl, by decide⟩
theorem witness_Output : ∃ t, step (at' 0 [0x47, 7]) = .next t ∧ t.out = [0xF4] := ⟨_, rfl, by decide⟩
/-- The stack at the next instruction, and at the instruction's own operand byte. -/
theorem witness_FetchSeesStoresAtOnce : let s := (at' 0x20 [0x45, 0]).setReg 7 0x23; let u := (at' 0x20 [0x45, 0]).setReg 7 0x22
    (Memory.wf s.mem = true ∧ s.run = .running ∧ s.BytesAtPc [0x45, regByte 0] ∧ s.sp.toNat = s.pc.toNat + 3 ∧
      ∃ t, step s = .next t) ∧
    (Memory.wf u.mem = true ∧ u.run = .running ∧ u.BytesAtPc [0x45, regByte 0] ∧ u.sp.toNat = u.pc.toNat + 2 ∧
      ∃ t, step u = .next t) :=
  ⟨⟨by decide, rfl, (State.bytesAtPc_iff _ (by decide)).2 (by decide), by decide, _, rfl⟩,
    ⟨by decide, rfl, (State.bytesAtPc_iff _ (by decide)).2 (by decide), by decide, _, rfl⟩⟩
theorem witness_PushThenPopRestores : ∃ t v, Memory.wf State.reset.mem = true ∧ exec (.push (regByte 7)) State.reset = .next t ∧
    exec (.pop (regByte 7)) t = .next v := ⟨_, _, rfl, exec_push .., exec_pop ..⟩
theorem witness_CallThenRetReturnsPastCall : ∃ t v, Memory.wf (at' 253 []).mem = true ∧ (at' 253 []).pc.toNat ≤ 253 ∧
    exec (.call (regByte 7)) (at' 253 []) = .next t ∧ exec .ret t = .next v :=
  ⟨_, _, by decide, by decide, exec_call _ _ (by decide), exec_ret ..⟩
theorem witness_JumpsFollowTheLastCompare : ∃ t, exec (.cmp (regByte 0) (regByte 1)) State.reset = .next t ∧
    t.flags = t.flags := ⟨_, exec_cmp .., rfl⟩
theorem witness_StepKeepsInvariant : State.reset.Inv ∧ ∃ t, step State.reset = .next t := ⟨reset_inv, _, rfl⟩
theorem witness_EqualReads : Memory.wf [(3, 5), (255, 1)] = true := by decide
/-- An image of 256 bytes, the longest there is. -/
theorem witness_LoadFillsMemoryFromZero : (List.replicate 256 (0x01 : Byte)).length ≤ 256 := by
  rw [List.length_replicate]
/-- A 257-byte image, a file that does not parse, a bad line, and the literal 256 with a leading zero. -/
theorem witness_FailedLoad : parseImage ['2'] = .error .malformedLine ∧ boot ['2'] = .error .malformedLine ∧
    (∀ c ∈ ['1', 'x'], c ≠ '\n' ∧ c ≠ '#' ∧ isBlank c = false) ∧ 'x' ∈ ['1', 'x'] ∧ 'x' ≠ '0' ∧ 'x' ≠ '1' ∧
    (∀ c ∈ '0' :: '1' :: List.replicate 8 '0', c = '0' ∨ c = '1') ∧
    binaryNumeral ('0' :: '1' :: List.replicate 8 '0') = 256 := by
  refine ⟨by decide, by decide, by simp [isBlank], by decide, by decide, by decide, by simp, by decide⟩
theorem witness_FailedLoad_too_long : ∃ image, parseImage ((List.replicate 257 ['1', '\n']).flatten) = .ok image ∧
    256 < image.length := ⟨List.replicate 257 1, by decide +kernel, by rw [List.length_replicate]; decide⟩
theorem ImageLine.ok_intro (before digits after comment : List Char) (hb : ∀ c ∈ before, isBlank c = true)
    (hd : ∀ c ∈ digits, c = '0' ∨ c = '1') (hv : binaryNumeral digits ≤ 255) (ha : ∀ c ∈ after, isBlank c = true)
    (hc : '\n' ∉ comment) : ImageLine.Ok ⟨before, digits, after, none⟩ ∧ ImageLine.Ok ⟨before, digits, after, some comment⟩ :=
  ⟨⟨hb, hd, hv, ha, by simp⟩, ⟨hb, hd, hv, ha, by simpa using hc⟩⟩
/-- The kinds of line: the literal 255 alone and with a comment, a short literal, an empty line, white space, a comment. -/
theorem witness_ImageFile :
    (ImageLine.Ok ⟨[], List.replicate 8 '1', [], none⟩ ∧ ImageLine.Ok ⟨[], List.replicate 8 '1', [], some ['#', '\r']⟩) ∧
    (ImageLine.Ok ⟨['\t'], ['1', '0', '1'], [' '], none⟩ ∧ ImageLine.Ok ⟨['\t'], ['1', '0', '1'], [' '], some []⟩) ∧
    (ImageLine.Ok ⟨[], [], [], none⟩ ∧ ImageLine.Ok ⟨[], [], [], some []⟩) ∧
    (ImageLine.Ok ⟨[' ', '\r'], [], [], none⟩ ∧ ImageLine.Ok ⟨[' ', '\r'], [], [], some ['x']⟩) :=
  ⟨ImageLine.ok_intro _ _ _ _ (by simp) (by simp) (by decide) (by simp) (by simp),
    ImageLine.ok_intro _ _ _ _ (by simp [isBlank]) (by simp) (by decide) (by simp [isBlank]) (by simp),
    ImageLine.ok_intro _ _ _ _ (by simp) (by simp) (by decide) (by simp) (by simp),
    ImageLine.ok_intro _ _ _ _ (by simp [isBlank]) (by simp) (by decide) (by simp) (by simp)⟩
/-- A step of a run that goes on, and the two ends of a run: HLT and a fault. -/
theorem witness_ExitStatus : ((at' 0 [0x47, 7]).Inv ∧ ∃ t, step (at' 0 [0x47, 7]) = .next t ∧ t.run = .running) ∧ (∃ t, step (at' 0 [0x01]) = .next t ∧ t.run = .halted) ∧
    (at' 0 [0x01]).byteAt? 0 = some 0x01 ∧ (∃ t, step State.reset = .next t ∧ t.run = .halted) ∧
    State.reset.byteAt? 0 ≠ some 0x01 :=
  ⟨⟨⟨rfl, by decide, fun _ => .inl rfl, fun _ => rfl, fun h => (h rfl).elim, fun _ h => by cases h⟩, _, rfl, by decide⟩,
    ⟨_, rfl, by decide⟩, by decide, ⟨_, rfl, by decide⟩, by decide⟩
theorem witness_PlacedTableWord : Memory.wf (at' 253 []).mem = true ∧ (at' 253 []).run = .running ∧
    (at' 253 []).pc.toNat ≤ 253 ∧ decodeTableWord 24 0x0307A0 = some (.add 7 3) := by decide

end Sys2Proof.Tests
end

section
/-! The state family: the register file at reset (R21) and the run state (R38), with the lemmas they rest on. -/

namespace Sys2Proof.Machine

/-! ## The opcode at pc -/

/-- Every row of the dispatch table builds an instruction of its own opcode. -/
theorem opcode_build_of_mem {row : Row} (h : row ∈ dispatchTable) (b1 b2 : Byte) :
    (row.build b1 b2).opcode = row.opcode := by
  rcases mem_dispatchTable h with rfl | rfl | rfl | rfl | rfl | rfl | rfl | rfl | rfl | rfl | rfl | rfl | rfl <;> rfl

/-- The byte at pc is the opcode of the instruction that is decoded there. -/
theorem byteAt?_pc_of_decode {s : State} {i : Instr} {rest : List Byte} (h : decode s.fetchWindow = .ok (i, rest)) :
    s.byteAt? s.pc.toNat = some i.opcode := by
  obtain ⟨row, hmem, b1, b2, tail, hwindow, -, -, rfl⟩ := decode_ok_cases h
  have hhead : s.fetchWindow[0]? = some row.opcode := by rw [hwindow]; rfl
  rw [opcode_build_of_mem hmem, ← hhead, s.fetchWindow_getElem? 0]
  rfl

/-- HLT alone has the opcode 0x01 (R73). -/
theorem opcode_eq_hlt_iff (i : Instr) : i.opcode = 0x01 ↔ i = .hlt := by
  cases i <;> simp [Instr.opcode]

/-! ## What exec does to the run state and the fault record -/

/-- An instruction keeps the run state and the fault record, or is HLT and halts without a record, or raises a fault. -/
theorem exec_run_fault_cases {i : Instr} {s t : State} (h : exec i s = .next t) :
    (i ≠ .hlt ∧ t.run = s.run ∧ t.fault = s.fault) ∨ (i = .hlt ∧ t.run = .halted ∧ t.fault = s.fault) ∨
    ∃ c, t = s.raise c := by
  cases executes_of_exec h with
  | hlt => exact .inr (.inl ⟨rfl, rfl, rfl⟩)
  | callFault => exact .inr (.inr ⟨_, rfl⟩)
  | illFormed => exact .inr (.inr ⟨_, rfl⟩)
  | _ => exact .inl (by simp)

/-- A step from a state without a fault record ends HALTED exactly at HLT's opcode or with a fault record (R38). -/
theorem step_halted_iff {s t : State} (h : step s = .next t) (hfault : s.fault = none) :
    t.run = .halted ↔ s.byteAt? s.pc.toNat = some 0x01 ∨ t.fault ≠ none := by
  obtain ⟨hrun, ⟨e, -, rfl⟩ | ⟨i, rest, hdec, hexec⟩⟩ := step_next_cases h
  · simp
  · have hopcode : s.byteAt? s.pc.toNat = some 0x01 ↔ i = .hlt := by
      rw [byteAt?_pc_of_decode hdec, Option.some_inj, opcode_eq_hlt_iff]
    rw [hopcode]
    obtain ⟨hi, hr, hf⟩ | ⟨hi, hr, -⟩ | ⟨c, rfl⟩ := exec_run_fault_cases hexec
    · simp [hi, hr, hf, hrun, hfault]
    · simp [hi, hr]
    · simp

/-- A HALTED state has no next state (R38, R100). -/
theorem step_ne_next_of_halted {s : State} (h : s.run = .halted) (t : State) : step s ≠ .next t := by
  intro hstep
  obtain ⟨hrun, -⟩ := step_next_cases hstep
  simp [hrun] at h

/-! ## No instruction reads the run state -/

theorem setFlags_set_run (s : State) (r : RunState) (v : Byte) :
    { s with run := r }.setFlags v = { s.setFlags v with run := r } := by
  unfold State.setFlags; split <;> rfl

theorem jumpIf_set_run (s : State) (r : RunState) (c : Bool) (q : RegIdx) :
    jumpIf c q { s with run := r } = { jumpIf c q s with run := r } := by
  cases c <;> rfl

/-- From whichever run state an instruction starts, its next state is the same but for the run state. -/
theorem exec_run_unread {i : Instr} {s t : State} (h : exec i s = .next t) (r : RunState) :
    ∃ t', exec i { s with run := r } = .next t' ∧ t = { t' with run := t.run } := by
  cases executes_of_exec h with
  | ldi q v => exact ⟨_, exec_ldi .., rfl⟩
  | prn q => exact ⟨_, exec_prn .., rfl⟩
  | mul u v => exact ⟨_, exec_mul .., rfl⟩
  | push q => exact ⟨_, exec_push .., rfl⟩
  | pop q => exact ⟨_, exec_pop .., rfl⟩
  | hlt => exact ⟨_, exec_hlt .., rfl⟩
  | call q hret => exact ⟨_, exec_call _ q hret, rfl⟩
  | callFault q hret => exact ⟨_, exec_call_fault _ q hret, rfl⟩
  | ret => exact ⟨_, exec_ret .., rfl⟩
  | add p q => exact ⟨_, exec_add .., rfl⟩
  | cmp p q => exact ⟨_, exec_cmp .., by rw [setFlags_set_run s r]; rfl⟩
  | jeq q => exact ⟨_, exec_jeq .., by rw [jumpIf_set_run s r]; rfl⟩
  | jne q => exact ⟨_, exec_jne .., by rw [jumpIf_set_run s r]; rfl⟩
  | jmp q => exact ⟨_, exec_jmp .., rfl⟩
  | illFormed _ b _ _ hexec => exact ⟨_, hexec _, rfl⟩

/-! ## The obligations -/

/-- Settles O28: each clause is a lemma above; the run state is unread because exec's answer, case by case, is the same
function of the other fields. -/
theorem runStateChangesOnlyByHltOrFault : Obligations.RunStateChangesOnlyByHltOrFault :=
  ⟨⟨rfl, rfl⟩, fun _ _ => step_halted_iff, fun _ => step_ne_next_of_halted, fun _ _ _ h => exec_run_unread h .halted⟩

/-- Settles O40, register by register. -/
theorem resetRegisterFile : Obligations.ResetRegisterFile := by
  unfold Obligations.ResetRegisterFile
  decide

end Sys2Proof.Machine
end

section
/-! The engine family: opcode fetch (R101) and the unknown opcode (R102, R202), with the lemmas they rest on. -/

namespace Sys2Proof.Machine

/-! ## Opcode fetch -/

/-- The first byte fetched is the memory byte at pc, if pc lies inside memory. -/
theorem State.fetchWindow_head? (s : State) : s.fetchWindow.head? = s.byteAt? s.pc.toNat := by
  rw [List.head?_eq_getElem?, s.fetchWindow_getElem? 0]
  rfl

/-- Nothing is fetched beyond the end of memory. -/
theorem State.fetchWindow_eq_nil {s : State} (hpc : 255 < s.pc.toNat) : s.fetchWindow = [] := by
  have hlen : s.fetchWindow.length = 0 := by
    rw [s.fetchWindow_length]
    omega
  exact List.eq_nil_of_length_eq_zero hlen

/-- A RUNNING engine whose pc lies outside memory raises AddressOutOfRange(pc): decoding misses byte 0. -/
theorem step_of_pc_gt {s : State} (hrun : s.run = .running) (hpc : 255 < s.pc.toNat) :
    step s = .next (s.raise (.addressOutOfRange s.pc.toNat)) := by
  have hdec : decode s.fetchWindow = .error (.missingByte 0) := by
    rw [State.fetchWindow_eq_nil hpc]
    rfl
  exact step_of_decode_error hrun hdec

/-! ## Unknown opcodes -/

/-- The decoder reports an unknown opcode exactly at an illegal one, and names that byte, whatever follows it. -/
theorem decode_cons_eq_unknownOpcode_iff (opcode b : Byte) (bytes : List Byte) :
    decode (opcode :: bytes) = .error (.unknownOpcode b) ↔ IllegalOpcode opcode ∧ b = opcode := by
  rw [← dispatch?_eq_none_iff]
  constructor
  · intro h
    obtain ⟨hnil, -⟩ | ⟨o, tail, hcons, hnone, he⟩ | ⟨_, -, _, -, -, he⟩ | ⟨_, -, _, _, _, _, _, -, -, -, he⟩ :=
      decode_error_cases h
    · cases hnil
    · cases hcons
      cases he
      exact ⟨hnone, rfl⟩
    · cases he
    · cases he
  · rintro ⟨hnone, rfl⟩
    simp [decode, hnone]

/-- A RUNNING engine with an illegal opcode at pc raises UnknownOpcode with it. -/
theorem step_of_illegalOpcode {s : State} {opcode : Byte} (hrun : s.run = .running)
    (hbyte : s.byteAt? s.pc.toNat = some opcode) (hillegal : IllegalOpcode opcode) :
    step s = .next (s.raise (.unknownOpcode opcode)) := by
  obtain ⟨tail, hwindow⟩ := List.head?_eq_some_iff.1 (s.fetchWindow_head?.trans hbyte)
  have hdec : decode s.fetchWindow = .error (.unknownOpcode opcode) := by
    rw [hwindow, decode_cons_eq_unknownOpcode_iff]
    exact ⟨hillegal, rfl⟩
  exact step_of_decode_error hrun hdec

/-! ## The obligations -/

/-- Settles O21: raising is exactly the update the statement writes out, and the decoder blames only illegal opcodes. -/
theorem unknownOpcodeHaltsAndChangesNothingElse : Obligations.UnknownOpcodeHaltsAndChangesNothingElse := by
  refine ⟨fun _ _ => step_of_illegalOpcode, fun opcode bytes hlegal b hdec => ?_⟩
  obtain ⟨hillegal, -⟩ := (decode_cons_eq_unknownOpcode_iff opcode b bytes).1 hdec
  exact hlegal hillegal

/-- Settles O20: outside memory there is no byte to fetch, the invariant bounds pc by 256, and inside memory the window
begins with the byte at pc. -/
theorem fetchReadsOpcodeOrFaults : Obligations.FetchReadsOpcodeOrFaults := by
  refine ⟨fun _ => step_of_pc_gt, fun s hinv hpc => ?_, fun s hpc => ?_⟩
  · have hle := hinv.pc_le
    omega
  · rw [s.fetchWindow_head?, s.byteAt?_of_lt (by omega)]

end Sys2Proof.Machine
end

section
/-! The data-movement family: LDI (R120), with what the engine does with the bytes of a dispatch-table row at pc. -/

namespace Sys2Proof.Machine

/-! ## Decoding the bytes of a row (R102 to R105) -/

section
variable {opcode : Byte} {row : Row} (hrow : dispatch? opcode = some row)
include hrow

/-- Legal operands decode to the instruction the row builds. -/
theorem decode_eq_build {tail rest : List Byte} {b1 b2 : Byte}
    (htake : takeOperands row.format.width tail = .ok (b1, b2, rest))
    (hlegal : ∀ b ∈ row.format.registerFields b1 b2, IsRegIndex b) :
    decode (opcode :: tail) = .ok (row.build b1 b2, rest) := by
  simp [decode, hrow, htake, firstBadIndex_none_iff.2 hlegal]

/-- Too few bytes for the row's width miss the first byte that is not there. -/
theorem decode_eq_missingByte {tail : List Byte} (hshort : tail.length + 1 < row.format.width) :
    decode (opcode :: tail) = .error (.missingByte (tail.length + 1)) := by
  obtain ⟨b1, b2, rest, -, hbytes⟩ | ⟨-, htake⟩ := takeOperands_cases row.format tail
  · obtain ⟨hw, -⟩ | ⟨hw, -, rfl⟩ | ⟨hw, rfl⟩ := hbytes
    all_goals
      simp only [hw, List.length_cons] at hshort
      omega
  · simp [decode, hrow, htake]

/-- A register field of the row that names no register is reported. -/
theorem decode_eq_registerIndexOutOfRange {tail rest : List Byte} {b1 b2 b : Byte}
    (htake : takeOperands row.format.width tail = .ok (b1, b2, rest))
    (hbad : firstBadIndex (row.format.registerFields b1 b2) = some b) :
    decode (opcode :: tail) = .error (.registerIndexOutOfRange b) := by
  simp [decode, hrow, htake, hbad]

end

/-- A first register field above 7 is the one reported, whatever the second field holds. -/
theorem firstBadIndex_of_head? {fields : List Byte} {b : Byte} (hhead : fields.head? = some b) (hb : 7 < b.toNat) :
    firstBadIndex fields = some b := by
  obtain ⟨tail, rfl⟩ := List.head?_eq_some_iff.1 hhead
  exact List.find?_cons_of_pos (by simpa using hb)

/-- As many bytes as the row is wide, with more after them, hold all its operands; b1 is the byte after the opcode. -/
theorem takeOperands_of_length {f : Format} {b1 : Byte} {more : List Byte} (hlen : more.length + 2 = f.width)
    (after : List Byte) : ∃ b2 rest, takeOperands f.width (b1 :: more ++ after) = .ok (b1, b2, rest) := by
  obtain ⟨c1, b2, rest, htake, hbytes⟩ | ⟨hshort, -⟩ := takeOperands_cases f (b1 :: more ++ after)
  · obtain ⟨hw, -⟩ | ⟨-, -, hcons⟩ | ⟨-, hcons⟩ := hbytes
    · omega
    all_goals
      obtain ⟨rfl, -⟩ := List.cons.inj hcons
      exact ⟨b2, rest, htake⟩
  · simp only [List.cons_append, List.length_cons, List.length_append] at hshort
    omega

/-! ## Stepping on the bytes of a row -/

/-- A RUNNING engine runs the instruction that the bytes at pc decode to. -/
theorem stepRuns_of_decode {bytes : List Byte} {i : Instr} (hlen : bytes.length ≤ 3)
    (hdec : ∀ rest, decode (bytes ++ rest) = .ok (i, rest)) : StepRuns bytes i := by
  intro s hrun hbytes
  obtain ⟨rest, hwindow⟩ := hbytes.window_append hlen
  simp [step, hrun, hwindow, hdec]

/-- Operands never reach past the fetch window. -/
theorem format_width_le_three (f : Format) : f.width ≤ 3 := by
  cases f <;> decide

/-- An operand byte of a row at address 256 faults: the fetch window ends right before it. -/
theorem operandFetchFaults_of_dispatch? {opcode : Byte} {row : Row} (hrow : dispatch? opcode = some row) :
    OperandFetchFaults opcode row.format.width := by
  intro s k hrun hbyte hk hwidth hend
  obtain ⟨tail, hwindow⟩ := List.head?_eq_some_iff.1 (s.fetchWindow_head?.trans hbyte)
  have hle := format_width_le_three row.format
  have hlen : tail.length + 1 = k := by
    have hwin := s.fetchWindow_length
    rw [hwindow, List.length_cons] at hwin
    omega
  subst hlen
  have hdec : decode s.fetchWindow = .error (.missingByte (tail.length + 1)) := by
    rw [hwindow, decode_eq_missingByte hrow hwidth]
  exact step_of_decode_error hrun hdec

/-- A row whose first operand byte is a register field has that byte checked first. -/
theorem firstFieldChecked_of_dispatch? {opcode : Byte} {row : Row} (hrow : dispatch? opcode = some row)
    (hfield : ∀ b1 b2, (row.format.registerFields b1 b2).head? = some b1) :
    FirstFieldChecked opcode row.format.width := by
  intro s bytes b1 hrun hbytes hlen hopcode hb1 hgt
  obtain ⟨after, hwindow⟩ := hbytes.window_append (hlen ▸ format_width_le_three row.format)
  obtain ⟨more, rfl⟩ : ∃ more, bytes = opcode :: b1 :: more := by
    rcases bytes with _ | ⟨o, _ | ⟨b, more⟩⟩
    · simp at hopcode
    · simp at hb1
    · cases hopcode
      cases hb1
      exact ⟨more, rfl⟩
  obtain ⟨b2, rest, htake⟩ := takeOperands_of_length (b1 := b1) hlen after
  have hdec : decode s.fetchWindow = .error (.registerIndexOutOfRange b1) :=
    hwindow ▸ decode_eq_registerIndexOutOfRange hrow htake (firstBadIndex_of_head? (hfield b1 b2) hgt)
  exact step_of_decode_error hrun hdec

/-! ## LDI -/

theorem dispatch?_ldi : dispatch? 0x82 = some ⟨0x82, .ri, fun b1 b2 => .ldi b1 b2⟩ := rfl

/-- LDI's three bytes decode to it for every register and every immediate, which is never checked. -/
theorem decode_ldi (r : RegIdx) (imm8 : Byte) (rest : List Byte) :
    decode ([0x82, regByte r, imm8] ++ rest) = .ok (.ldi (regByte r) imm8, rest) := by
  have hlegal : ∀ b ∈ Format.ri.registerFields (regByte r) imm8, IsRegIndex b := by
    simpa [Format.registerFields] using regByte_isRegIndex r
  exact decode_eq_build dispatch?_ldi rfl hlegal

/-- With FLAGS_IN_R4 true the flags are x[4] (R31). -/
theorem State.flags_of_flagsInR4 {s : State} (h : s.flagsInR4 = true) : s.flags = s.reg 4 := by
  simp [State.flags, h, Config.flagsAlias]

/-! ## The obligation -/

/-- Settles O1: LDI's bytes decode to it, exec's answer is one register write and an advance, and both faults are those
of every row with a register field first. -/
theorem ldiLoadsImmediateAndAdvancesThree : Obligations.LdiLoadsImmediateAndAdvancesThree := by
  refine ⟨fun r imm8 => stepRuns_of_decode (Nat.le_refl 3) (decode_ldi r imm8), fun r imm8 s => ?_,
    operandFetchFaults_of_dispatch? dispatch?_ldi, firstFieldChecked_of_dispatch? dispatch?_ldi fun _ _ => rfl⟩
  refine ⟨_, exec_ldi s r imm8, by simp, rfl, fun q hq => ?_, fun _ => rfl, ⟨rfl, rfl, rfl, rfl, rfl⟩, ?_⟩
  · have hne : q ≠ r := by simpa using hq
    simp [hne]
  · rintro halias rfl
    simp [State.flags_of_flagsInR4, halias]

end Sys2Proof.Machine
end

section
/-! The ALU family: MUL (R141) and ADD (R142), with what the engine does with the bytes of a row of two registers at pc
and with the frame of a register write. -/

namespace Sys2Proof.Machine

/-! ## The frame of a register write (R22, R35) -/

/-- Writing one register and advancing pc keeps every other register, memory and all the rest. -/
theorem setReg_advance_frame (s : State) (r : RegIdx) (v : Byte) (w : Nat) :
    s.RegsKeptExcept ((s.setReg r v).advance w) [r] ∧ s.MemKept ((s.setReg r v).advance w) ∧
      s.RestKept ((s.setReg r v).advance w) := by
  refine ⟨fun q hq => ?_, fun _ => rfl, rfl, rfl, rfl, rfl, rfl⟩
  have hne : q ≠ r := by simpa using hq
  simp [hne]

/-! ## Rows of two registers (R71, R105) -/

/-- A second register field above 7 is reported when the first field is legal. -/
theorem firstBadIndex_second {b1 b2 : Byte} (hlegal : b1.toNat ≤ 7) (hgt : 7 < b2.toNat) :
    firstBadIndex [b1, b2] = some b2 := by
  have hskip : firstBadIndex [b1, b2] = firstBadIndex [b2] := List.find?_cons_of_neg (by simpa using hlegal)
  rw [hskip, firstBadIndex_of_head? rfl hgt]

section
variable {opcode : Byte} {build : Byte → Byte → Instr} (hrow : dispatch? opcode = some ⟨opcode, .rr, build⟩)
include hrow

/-- Two register bytes after the opcode of such a row decode to the instruction it builds. -/
theorem decode_registers (a b : RegIdx) (rest : List Byte) :
    decode ([opcode, regByte a, regByte b] ++ rest) = .ok (build (regByte a) (regByte b), rest) := by
  have hlegal : ∀ f ∈ Format.rr.registerFields (regByte a) (regByte b), IsRegIndex f := by
    simpa [Format.registerFields] using And.intro (regByte_isRegIndex a) (regByte_isRegIndex b)
  exact decode_eq_build hrow rfl hlegal

/-- Such a row has its second operand byte checked after its first. -/
theorem secondFieldChecked_of_dispatch? : SecondFieldChecked opcode := by
  intro s b1 b2 hrun hbytes hlegal hgt
  obtain ⟨after, hwindow⟩ := hbytes.window_append (Nat.le_refl 3)
  have hdec : decode s.fetchWindow = .error (.registerIndexOutOfRange b2) :=
    hwindow ▸ decode_eq_registerIndexOutOfRange hrow rfl (firstBadIndex_second hlegal hgt)
  exact step_of_decode_error hrun hdec

end

/-! ## MUL and ADD -/

theorem dispatch?_mul : dispatch? 0xA2 = some ⟨0xA2, .xx, fun b1 b2 => .mul b1 b2⟩ := rfl

/-- MUL's three bytes decode to it whatever its operand bytes hold: it has no register field. -/
theorem decode_mul (u v : Byte) (rest : List Byte) : decode ([0xA2, u, v] ++ rest) = .ok (.mul u v, rest) :=
  decode_eq_build dispatch?_mul rfl (by simp [Format.registerFields])

theorem dispatch?_add : dispatch? 0xA0 = some ⟨0xA0, .rr, fun b1 b2 => .add b1 b2⟩ := rfl

/-! ## The obligations -/

/-- Settles O4: MUL's bytes decode to it unchecked, exec's answer is a write of the ALU's product to R0 and an advance,
and the fault is that of every row with operand bytes. -/
theorem mulMultipliesR0ByR1 : Obligations.MulMultipliesR0ByR1 := by
  refine ⟨fun u v => stepRuns_of_decode (Nat.le_refl 3) (decode_mul u v), fun u v s => ?_,
    operandFetchFaults_of_dispatch? dispatch?_mul⟩
  exact ⟨_, exec_mul s u v, by simp [aluMul_toNat], rfl, setReg_advance_frame s 0 _ 3⟩

/-- Settles O5: ADD's bytes decode to it, exec's answer is a write of the ALU's sum to R0 and an advance, and the faults
are those of every row of two registers. -/
theorem addWritesSumToR0 : Obligations.AddWritesSumToR0 := by
  refine ⟨fun a b => stepRuns_of_decode (Nat.le_refl 3) (decode_registers dispatch?_add a b), fun a b s => ?_,
    operandFetchFaults_of_dispatch? dispatch?_add, firstFieldChecked_of_dispatch? dispatch?_add fun _ _ => rfl,
    secondFieldChecked_of_dispatch? dispatch?_add⟩
  exact ⟨_, exec_add s a b, by simp [aluAdd_toNat], rfl, setReg_advance_frame s 0 _ 3⟩

end Sys2Proof.Machine
end

section
/-! The control-transfer family: RET (R162) and JMP (R165), with what the engine does with the bytes of a row of one
register at pc and with a transfer to pc itself. -/

namespace Sys2Proof.Machine

/-! ## Rows of one register (R71) -/

/-- A register byte after the opcode of a row of one register decodes to the instruction the row builds; such a row
reads no second operand. -/
theorem decode_register {opcode : Byte} {build : Byte → Byte → Instr}
    (hrow : dispatch? opcode = some ⟨opcode, .r, build⟩) (r : RegIdx) (rest : List Byte) :
    decode ([opcode, regByte r] ++ rest) = .ok (build (regByte r) 0, rest) := by
  have hlegal : ∀ b ∈ Format.r.registerFields (regByte r) 0, IsRegIndex b := by
    simpa [Format.registerFields] using regByte_isRegIndex r
  exact decode_eq_build hrow rfl hlegal

/-! ## Transfers of control (R160) -/

/-- A transfer to the address pc already holds changes nothing. -/
theorem State.jump_eq_self {s : State} {v : Byte} (h : v.setWidth 9 = s.pc) : s.jump v = s := by
  rw [State.jump, h]

/-- The pc after a transfer is the target byte itself: no byte is cut off by 9 bits (R36). -/
theorem State.jump_pc_toNat (s : State) (v : Byte) : (s.jump v).pc.toNat = v.toNat := by
  rw [State.jump_pc, BitVec.toNat_setWidth_of_le (by decide)]

/-! ## RET -/

theorem dispatch?_ret : dispatch? 0x11 = some ⟨0x11, .z, fun _ _ => .ret⟩ := rfl

/-- RET's one byte decodes to it. -/
theorem decode_ret (rest : List Byte) : decode ([0x11] ++ rest) = .ok (.ret, rest) :=
  decode_eq_build dispatch?_ret (b1 := 0) (b2 := 0) rfl (by simp [Format.registerFields])

/-! ## JMP -/

theorem dispatch?_jmp : dispatch? 0x54 = some ⟨0x54, .r, fun b1 _ => .jmp b1⟩ := rfl

/-- A RUNNING engine runs a JMP that stands at pc, for every register. -/
theorem stepRuns_jmp (r : RegIdx) : StepRuns [0x54, regByte r] (.jmp (regByte r)) :=
  stepRuns_of_decode (by simp) (decode_register dispatch?_jmp r)

/-- A JMP to its own address loops: the engine steps to the state it is in (R165). -/
theorem step_jmp_self {s : State} {r : RegIdx} (hrun : s.run = .running) (hbytes : s.BytesAtPc [0x54, regByte r])
    (hself : (s.reg r).setWidth 9 = s.pc) : step s = .next s := by
  rw [stepRuns_jmp r s hrun hbytes, exec_jmp, State.jump_eq_self hself]

/-! ## The obligations -/

/-- Settles O8: RET's byte decodes to it, and exec's answer is an increment of x[7] and a transfer to the byte that was
on top of the stack before it. -/
theorem retPopsProgramCounter : Obligations.RetPopsProgramCounter := by
  refine ⟨stepRuns_of_decode (by simp) decode_ret, fun s => ?_⟩
  refine ⟨_, exec_ret s, State.jump_pc_toNat _ _, by simp, fun q hq => ?_, fun _ => rfl, ⟨rfl, rfl, rfl, rfl, rfl⟩⟩
  have hne : q ≠ 7 := by simpa using hq
  simp [hne]

/-- Settles O11: JMP's bytes decode to it, exec's answer is a transfer to the register, which is no change when the
register holds pc, and both faults are those of every row with a register field first. -/
theorem jmpJumpsToRegister : Obligations.JmpJumpsToRegister :=
  ⟨stepRuns_jmp, fun r s => exec_jmp s r, fun _ _ => step_jmp_self,
    operandFetchFaults_of_dispatch? dispatch?_jmp, firstFieldChecked_of_dispatch? dispatch?_jmp fun _ _ => rfl⟩

end Sys2Proof.Machine
end

section
/-! The system family: PRN (R181) and HLT (R182), with what a step that ends a run cleanly ran. -/

namespace Sys2Proof.Machine

/-! ## PRN -/

theorem dispatch?_prn : dispatch? 0x47 = some ⟨0x47, .r, fun b1 _ => .prn b1⟩ := rfl

/-! ## HLT -/

theorem dispatch?_hlt : dispatch? 0x01 = some ⟨0x01, .z, fun _ _ => .hlt⟩ := rfl

/-- HLT's one byte decodes to it. -/
theorem decode_hlt (rest : List Byte) : decode ([0x01] ++ rest) = .ok (.hlt, rest) :=
  decode_eq_build dispatch?_hlt (b1 := 0) (b2 := 0) rfl (by simp [Format.registerFields])

/-- HLT leaves the engine HALTED, in every state. -/
theorem exec_hlt_run {s t : State} (h : exec .hlt s = .next t) : t.run = .halted := by
  rw [exec_hlt] at h
  cases h
  rfl

/-- An address inside memory and the one after it fit in pc, 256 included (R36). -/
theorem pc_add_one_toNat {pc : PC} (h : pc.toNat ≤ 255) : (pc + 1).toNat = pc.toNat + 1 := by
  bv_omega

/-- A run that ends without a fault record ends at HLT: every other instruction that raises no fault leaves the engine
RUNNING. -/
theorem byteAt?_pc_of_endedCleanly {s t : State} (h : step s = .next t) (hclean : t.EndedCleanly) :
    s.byteAt? s.pc.toNat = some 0x01 := by
  obtain ⟨hhalted, hfault⟩ := hclean
  obtain ⟨hrun, ⟨e, -, rfl⟩ | ⟨i, rest, hdec, hexec⟩⟩ := step_next_cases h
  · simp at hfault
  · obtain ⟨-, hkept, -⟩ | ⟨rfl, -, -⟩ | ⟨c, rfl⟩ := exec_run_fault_cases hexec
    · simp [hkept, hrun] at hhalted
    · exact byteAt?_pc_of_decode hdec
    · simp at hfault

/-! ## The obligations -/

/-- Settles O12: PRN's bytes decode to it, exec's answer is an emit and an advance, both faults are those of every row
with a register field first, and raising a fault keeps the log. -/
theorem prnEmitsRegister : Obligations.PrnEmitsRegister :=
  ⟨fun r => stepRuns_of_decode (by simp) (decode_register dispatch?_prn r), fun r s => exec_prn s r,
    operandFetchFaults_of_dispatch? dispatch?_prn, firstFieldChecked_of_dispatch? dispatch?_prn fun _ _ => rfl,
    State.raise_out⟩

/-- Settles O13: HLT's byte decodes to it, exec's answer is a halt and an advance, a HALTED engine has no step, and
only HLT ends a run without a fault record. -/
theorem hltHaltsPastItself : Obligations.HltHaltsPastItself :=
  ⟨stepRuns_of_decode (by simp) decode_hlt, exec_hlt, fun _ => pc_add_one_toNat,
    fun _ _ h => step_ne_next_of_halted (exec_hlt_run h), fun _ _ => byteAt?_pc_of_endedCleanly⟩

end Sys2Proof.Machine
end

section
/-! Encoding: decode and encode are inverse to each other (R70 to R76), with the words and widths of the tables. -/

namespace Sys2Proof.Machine

/-! ## The other rows of the dispatch table (R73) -/

theorem dispatch?_push : dispatch? 0x45 = some ⟨0x45, .r, fun b1 _ => .push b1⟩ := rfl
theorem dispatch?_pop : dispatch? 0x46 = some ⟨0x46, .r, fun b1 _ => .pop b1⟩ := rfl
theorem dispatch?_call : dispatch? 0x50 = some ⟨0x50, .r, fun b1 _ => .call b1⟩ := rfl
theorem dispatch?_cmp : dispatch? 0xA7 = some ⟨0xA7, .rr, fun b1 b2 => .cmp b1 b2⟩ := rfl
theorem dispatch?_jeq : dispatch? 0x55 = some ⟨0x55, .r, fun b1 _ => .jeq b1⟩ := rfl
theorem dispatch?_jne : dispatch? 0x56 = some ⟨0x56, .r, fun b1 _ => .jne b1⟩ := rfl

/-! ## Decoding what was encoded -/

/-- The encoding of a well-formed instruction decodes to it, whatever follows: its row reads just its operand bytes. -/
theorem decode_encode {i : Instr} (h : i.wellFormed = true) (rest : List Byte) :
    decode (encode i ++ rest) = .ok (i, rest) := by
  rcases wellFormed_cases h with ⟨r, v, rfl⟩ | ⟨r, rfl⟩ | ⟨u, v, rfl⟩ | ⟨r, rfl⟩ | ⟨r, rfl⟩ | rfl | ⟨r, rfl⟩ | rfl |
    ⟨q, r, rfl⟩ | ⟨q, r, rfl⟩ | ⟨r, rfl⟩ | ⟨r, rfl⟩ | ⟨r, rfl⟩
  · exact decode_ldi r v rest
  · exact decode_register dispatch?_prn r rest
  · exact decode_mul u v rest
  · exact decode_register dispatch?_push r rest
  · exact decode_register dispatch?_pop r rest
  · exact decode_hlt rest
  · exact decode_register dispatch?_call r rest
  · exact decode_ret rest
  · exact decode_registers dispatch?_add q r rest
  · exact decode_registers dispatch?_cmp q r rest
  · exact decode_register dispatch?_jeq r rest
  · exact decode_register dispatch?_jne r rest
  · exact decode_register dispatch?_jmp r rest

/-! ## Encoding what was decoded -/

/-- The operand bytes of what a row builds are as many of b1 and b2 as its width reaches. -/
theorem operands_build_of_mem {row : Row} (h : row ∈ dispatchTable) (b1 b2 : Byte) :
    (row.build b1 b2).operands = [b1, b2].take (row.format.width - 1) := by
  rcases mem_dispatchTable h with rfl | rfl | rfl | rfl | rfl | rfl | rfl | rfl | rfl | rfl | rfl | rfl | rfl <;> rfl

/-- What a row builds is well-formed exactly when its register fields name registers (R76). -/
theorem wellFormed_build_iff {row : Row} (h : row ∈ dispatchTable) (b1 b2 : Byte) :
    (row.build b1 b2).wellFormed = true ↔ ∀ b ∈ row.format.registerFields b1 b2, IsRegIndex b := by
  rcases mem_dispatchTable h with rfl | rfl | rfl | rfl | rfl | rfl | rfl | rfl | rfl | rfl | rfl | rfl | rfl <;>
    simp [Instr.wellFormed, Format.registerFields]

/-- Operand fetch takes the operand bytes off the front and drops nothing. -/
theorem takeOperands_append {f : Format} {tail rest : List Byte} {b1 b2 : Byte}
    (h : takeOperands f.width tail = .ok (b1, b2, rest)) : [b1, b2].take (f.width - 1) ++ rest = tail := by
  obtain ⟨c1, c2, rest', htake, hbytes⟩ | ⟨-, herr⟩ := takeOperands_cases f tail
  · rw [htake] at h
    cases h
    obtain ⟨hw, -, -, rfl⟩ | ⟨hw, -, rfl⟩ | ⟨hw, rfl⟩ := hbytes <;> simp [hw]
  · simp [herr] at h

theorem wellFormed_of_decode {bytes rest : List Byte} {i : Instr} (h : decode bytes = .ok (i, rest)) :
    i.wellFormed = true := by
  obtain ⟨row, hmem, b1, b2, -, -, -, hbad, rfl⟩ := decode_ok_cases h
  exact (wellFormed_build_iff hmem b1 b2).2 (firstBadIndex_none_iff.1 hbad)

theorem encode_append_of_decode {bytes rest : List Byte} {i : Instr} (h : decode bytes = .ok (i, rest)) :
    encode i ++ rest = bytes := by
  obtain ⟨row, hmem, b1, b2, tail, rfl, htake, -, rfl⟩ := decode_ok_cases h
  rw [encode, opcode_build_of_mem hmem, operands_build_of_mem hmem, List.cons_append, takeOperands_append htake]

/-- Bytes that follow do not change what decodes. -/
theorem decode_append {bytes rest : List Byte} {i : Instr} (h : decode bytes = .ok (i, rest)) (more : List Byte) :
    decode (bytes ++ more) = .ok (i, rest ++ more) := by
  rw [← encode_append_of_decode h, List.append_assoc, decode_encode (wellFormed_of_decode h)]

/-! ## The obligations -/

/-- Settles O14, instruction by instruction. -/
theorem decodeInvertsEncode : Obligations.DecodeInvertsEncode :=
  fun _ rest hwf => decode_encode hwf rest

/-- Settles O15: a row builds an instruction of its own opcode from the operand bytes it takes, after checking them. -/
theorem encodeInvertsDecode : Obligations.EncodeInvertsDecode :=
  fun _ _ _ h => ⟨wellFormed_of_decode h, encode_append_of_decode h⟩

/-- Settles O16, word by word. -/
theorem sampleWordsDecode : Obligations.SampleWordsDecode := by
  unfold Obligations.SampleWordsDecode
  decide

/-- Settles O17: on each row of R73 both sides are the same numeral. -/
theorem widthIsTopOpcodeBitsPlusOne : Obligations.WidthIsTopOpcodeBitsPlusOne := by
  intro i
  cases i <;> simp [encode, Instr.operands, Instr.opcode]

end Sys2Proof.Machine
end

section
/-! The stack instructions PUSH, POP and CALL, the compare and the conditional jumps (R121, R122, R143, R161, R163,
R164), and the laws over two instructions that follow from them (R123, R161, R164). -/

namespace Sys2Proof.Machine

/-! ## Pushing a byte (R53) -/

section
variable {s : State} (hwf : Memory.wf s.mem = true) (v : Byte)
include hwf

/-- After a push the byte at the decremented x[7] is the one pushed. -/
theorem read_decSp_setTop : Memory.read (s.decSp.setTop v).mem (s.sp - 1) = v := by
  rw [State.setTop_mem, State.decSp_sp, State.decSp_mem, Memory.read_write_self hwf]

/-- A push changes x[7] and the byte it then points at, and nothing else. -/
theorem decSp_setTop_frame : s.RegsKeptExcept (s.decSp.setTop v) [7] ∧ s.MemKeptExcept (s.decSp.setTop v) (s.sp - 1) ∧
    s.RestKept (s.decSp.setTop v) := by
  refine ⟨fun q hq => ?_, fun a ha => ?_, rfl, rfl, rfl, rfl, rfl⟩
  · have hne : q ≠ 7 := by simpa using hq
    simp [hne]
  · rw [State.setTop_mem, State.decSp_sp, State.decSp_mem, Memory.read_write_other hwf v ha]

end

/-- x[7] read as a register (R23). -/
theorem State.reg_seven (s : State) : s.reg 7 = s.sp := rfl

/-! ## The flags a compare leaves (R143) -/

/-- FL is no part of pc. -/
@[simp] theorem State.advance_flags (s : State) (w : Nat) : (s.advance w).flags = s.flags := rfl

/-- The comparison sets EQ exactly for equal operands. -/
theorem aluCompare_getLsbD_zero (a b : Byte) : (aluCompare a b).getLsbD 0 = decide (a = b) := by
  obtain ⟨hlt, h⟩ | ⟨hgt, h⟩ | ⟨rfl, h⟩ := aluCompare_cases a b
  · have hne : a ≠ b := by rintro rfl; omega
    simp [h, hne]
  · have hne : a ≠ b := by rintro rfl; omega
    simp [h, hne]
  · simp [h]

/-- Writing FL changes x[4] alone where FL is x[4], and no register otherwise. -/
theorem setFlags_regsKept (s : State) (v : Byte) :
    s.RegsKeptExcept (s.setFlags v) (if s.flagsInR4 then [4] else []) := by
  intro q hq
  rw [State.setFlags_reg, if_neg]
  rintro ⟨halias, rfl⟩
  simp [halias] at hq

/-! ## Conditional jumps (R163, R164) -/

/-- A conditional jump is one assignment to pc. -/
theorem jumpIf_eq (c : Bool) (r : RegIdx) (s : State) :
    jumpIf c r s = { s with pc := if c = true then (s.reg r).setWidth 9 else s.pc + 2 } := by
  cases c <;> rfl

/-! ## The obligations on single instructions -/

/-- Settles O2: exec's answer is a push of the register, read after the decrement, and an advance. -/
theorem pushStoresBelowStackPointer : Obligations.PushStoresBelowStackPointer := by
  refine ⟨fun r => stepRuns_of_decode (by simp) (decode_register dispatch?_push r), fun r s hwf => ?_,
    operandFetchFaults_of_dispatch? dispatch?_push, firstFieldChecked_of_dispatch? dispatch?_push fun _ _ => rfl⟩
  have hread := read_decSp_setTop hwf (s.decSp.reg r)
  exact ⟨_, exec_push s r, by simp, hread.trans (s.decSp_reg r), rfl, decSp_setTop_frame hwf _⟩

/-- Settles O3: exec's answer is a register write, an increment of x[7] as that write left it, and an advance. -/
theorem popLoadsTopOfStack : Obligations.PopLoadsTopOfStack := by
  refine ⟨fun r => stepRuns_of_decode (by simp) (decode_register dispatch?_pop r), fun r s => ?_,
    operandFetchFaults_of_dispatch? dispatch?_pop, firstFieldChecked_of_dispatch? dispatch?_pop fun _ _ => rfl⟩
  refine ⟨_, exec_pop s r, fun hr => ?_, ?_, rfl, fun q hq => ?_, fun _ => rfl, ⟨rfl, rfl, rfl, rfl, rfl⟩, ?_⟩
  · simp [hr, hr.symm, State.top]
  · rintro rfl
    simp [State.top]
  · have hne : q ≠ r ∧ q ≠ 7 := by simpa using hq
    simp [hne]
  · rintro halias rfl
    simp [State.flags_of_flagsInR4, halias, State.top]

/-- Settles O6: exec's answer is a write of the comparison to FL and an advance; FL reads it back in both settings. -/
theorem cmpSetsExactlyOneFlag : Obligations.CmpSetsExactlyOneFlag := by
  refine ⟨fun a b => stepRuns_of_decode (Nat.le_refl 3) (decode_registers dispatch?_cmp a b), fun a b s => ?_,
    operandFetchFaults_of_dispatch? dispatch?_cmp, firstFieldChecked_of_dispatch? dispatch?_cmp fun _ _ => rfl,
    secondFieldChecked_of_dispatch? dispatch?_cmp⟩
  refine ⟨_, exec_cmp s a b, ?_, ?_, ?_, by simp, setFlags_regsKept s _, fun halias => by simp [halias],
    fun _ => by simp, by simp, by simp, by simp, by simp⟩
  · intro hlt
    simp [aluCompare, hlt, flLT]
  · intro hgt
    simp [aluCompare, hgt, Nat.lt_asymm hgt, flGT]
  · intro heq
    simp [aluCompare, heq, flEQ]

/-- Settles O7: up to pc 253 exec's answer is a push of the return address and a jump to the register, read after the
decrement; from 254 on the return address is no byte, and nothing is pushed. -/
theorem callPushesReturnAddressAndJumps : Obligations.CallPushesReturnAddressAndJumps := by
  refine ⟨fun r => stepRuns_of_decode (by simp) (decode_register dispatch?_call r), fun r s hwf hpc => ?_,
    fun r s hpc => exec_call_fault s r (by omega), operandFetchFaults_of_dispatch? dispatch?_call,
    firstFieldChecked_of_dispatch? dispatch?_call fun _ _ => rfl⟩
  have hread := read_decSp_setTop hwf (BitVec.ofNat 8 (s.pc.toNat + 2))
  have hbyte : (BitVec.ofNat 8 (s.pc.toNat + 2)).toNat = s.pc.toNat + 2 :=
    by rw [BitVec.toNat_ofNat, Nat.mod_eq_of_lt (by omega)]
  exact ⟨_, exec_call s r (by omega), by simp, (congrArg BitVec.toNat hread).trans hbyte,
    congrArg (BitVec.setWidth 9) (s.decSp_reg r), decSp_setTop_frame hwf _⟩

/-- Settles O9: exec's answer is a jump on the EQ bit. -/
theorem jeqJumpsIfEqualBitSet : Obligations.JeqJumpsIfEqualBitSet :=
  ⟨fun r => stepRuns_of_decode (by simp) (decode_register dispatch?_jeq r),
    fun r s => by rw [exec_jeq, jumpIf_eq]; rfl,
    operandFetchFaults_of_dispatch? dispatch?_jeq, firstFieldChecked_of_dispatch? dispatch?_jeq fun _ _ => rfl⟩

/-- Settles O10: exec's answer is a jump on the complement of the EQ bit. -/
theorem jneJumpsIfEqualBitClear : Obligations.JneJumpsIfEqualBitClear :=
  ⟨fun r => stepRuns_of_decode (by simp) (decode_register dispatch?_jne r),
    fun r s => by rw [exec_jne, jumpIf_eq]; simp [State.eqBit],
    operandFetchFaults_of_dispatch? dispatch?_jne, firstFieldChecked_of_dispatch? dispatch?_jne fun _ _ => rfl⟩

/-! ## The laws over two instructions -/

/-- Settles O37: POP reads the byte PUSH stored and undoes its decrement; for R7 the stored byte is x[7] - 1, and POP
adds the 1 back. -/
theorem pushThenPopRestores : Obligations.PushThenPopRestores := by
  intro r s t u v hwf hpush hsp hbyte hpop
  rw [exec_push] at hpush
  cases hpush
  rw [exec_pop] at hpop
  cases hpop
  have hstored := (read_decSp_setTop hwf (s.decSp.reg r)).trans (s.decSp_reg r)
  have husp : u.sp = s.sp - 1 := by simpa using hsp
  have htop : u.top = if r = 7 then s.sp - 1 else s.reg r := by
    rw [State.top, hbyte, State.advance_sp, State.setTop_sp, State.decSp_sp, State.advance_mem, hstored]
  refine ⟨?_, ?_, hstored⟩
  · by_cases hr : r = 7
    · simp [hr, htop, State.reg_seven]
    · simp [hr, htop]
  · by_cases hr : r = 7
    · simp [hr, htop]
    · simp [Ne.symm hr, husp]

/-- Settles O38: RET reads the return address CALL stored and undoes its decrement. -/
theorem callThenRetReturnsPastCall : Obligations.CallThenRetReturnsPastCall := by
  intro r s t u v hwf hpc hcall hsp hbyte hret
  rw [exec_call s r (by omega)] at hcall
  cases hcall
  rw [exec_ret] at hret
  cases hret
  have husp : u.sp = s.sp - 1 := by simpa using hsp
  have htop : u.top = BitVec.ofNat 8 (s.pc.toNat + 2) := by
    rw [State.top, hbyte, State.jump_sp, State.setTop_sp, State.decSp_sp, State.jump_mem, read_decSp_setTop hwf]
  refine ⟨?_, by simp [husp]⟩
  rw [State.jump_pc, htop]
  bv_omega

/-- Settles O39: the EQ bit of the comparison is equality of the operands. -/
theorem jumpsFollowTheLastCompare : Obligations.JumpsFollowTheLastCompare := by
  intro a b r s t u hcmp hflags
  rw [exec_cmp] at hcmp
  cases hcmp
  have heq : u.eqBit = decide (s.reg a = s.reg b) := by
    rw [State.eqBit, hflags, State.advance_flags, State.setFlags_flags, aluCompare_getLsbD_zero]
  constructor
  · rw [exec_jeq, jumpIf_eq, heq]
    simp
  · rw [exec_jne, jumpIf_eq, heq]
    simp

end Sys2Proof.Machine
end

section
/-! The engine: the step decodes and executes (R100 to R106), is the pseudocode of R109, reports the first failing check
(R209), and faults precisely (R204, R207). -/

namespace Sys2Proof.Machine

/-! ## What exec answers -/

/-- Every instruction has a next state in every state: a fault is one too. -/
theorem exec_total (i : Instr) (s : State) : ∃ t, exec i s = .next t := by
  by_cases hwf : i.wellFormed = true
  · rcases wellFormed_cases hwf with ⟨r, v, rfl⟩ | ⟨r, rfl⟩ | ⟨u, v, rfl⟩ | ⟨r, rfl⟩ | ⟨r, rfl⟩ | rfl | ⟨r, rfl⟩ | rfl |
      ⟨q, r, rfl⟩ | ⟨q, r, rfl⟩ | ⟨r, rfl⟩ | ⟨r, rfl⟩ | ⟨r, rfl⟩
    · exact ⟨_, exec_ldi s r v⟩
    · exact ⟨_, exec_prn s r⟩
    · exact ⟨_, exec_mul s u v⟩
    · exact ⟨_, exec_push s r⟩
    · exact ⟨_, exec_pop s r⟩
    · exact ⟨_, exec_hlt s⟩
    · by_cases hret : s.pc.toNat + 2 < 256
      · exact ⟨_, exec_call s r hret⟩
      · exact ⟨_, exec_call_fault s r (by omega)⟩
    · exact ⟨_, exec_ret s⟩
    · exact ⟨_, exec_add s q r⟩
    · exact ⟨_, exec_cmp s q r⟩
    · exact ⟨_, exec_jeq s r⟩
    · exact ⟨_, exec_jne s r⟩
    · exact ⟨_, exec_jmp s r⟩
  · obtain ⟨b, -, hexec⟩ := exec_of_not_wellFormed (by simpa using hwf)
    exact ⟨_, hexec s⟩

/-- A well-formed instruction keeps the run state and the fault record, or is HLT and halts without a record, or is a
CALL whose return address is no byte. -/
theorem exec_run_fault_cases_of_wellFormed {i : Instr} {s t : State} (hwf : i.wellFormed = true)
    (h : exec i s = .next t) :
    (i ≠ .hlt ∧ t.run = s.run ∧ t.fault = s.fault) ∨ (i = .hlt ∧ t.run = .halted ∧ t.fault = s.fault) ∨
    ∃ a, i = .call a ∧ 256 ≤ s.pc.toNat + 2 ∧ t = s.raise (.addressOutOfRange (s.pc.toNat + 2)) := by
  cases executes_of_exec h with
  | hlt => exact .inr (.inl ⟨rfl, rfl, rfl⟩)
  | callFault r hret => exact .inr (.inr ⟨_, rfl, hret, rfl⟩)
  | illFormed _ _ hbad => simp [hbad] at hwf
  | _ => exact .inl (by simp)

/-! ## Ill-formed instructions (R105) -/

/-- A pair of register bytes that are not both legal runs nothing: the first bad one is raised. -/
theorem withReg_pair_of_bad {a b : Byte} (h : a.toNat ≤ 7 → 7 < b.toNat) (s : State) (k : RegIdx → RegIdx → Result) :
    ∃ c : Byte, [a, b].find? (fun x => decide (7 < x.toNat)) = some c ∧
      (withReg a s fun ra => withReg b s (k ra)) = .next (s.raise (.registerIndexOutOfRange c)) := by
  by_cases ha : a.toNat ≤ 7
  · obtain ⟨r, rfl⟩ := exists_regByte ha
    refine ⟨b, ?_, by rw [withReg_regByte, withReg_of_gt (h ha)]⟩
    rw [List.find?_cons_of_neg (by simpa using ha), List.find?_cons_of_pos (by simpa using h ha)]
  · exact ⟨a, List.find?_cons_of_pos (by simpa using ha), withReg_of_gt (by omega) s _⟩

/-! ## The step from what decodes -/

theorem step_of_decode_ok {s : State} (hrun : s.run = .running) {i : Instr} {rest : List Byte}
    (h : decode s.fetchWindow = .ok (i, rest)) : step s = exec i s := by
  simp [step, hrun, h]

/-- A RUNNING engine has a next state, whether decoding fails or not. -/
theorem step_total {s : State} (hrun : s.run = .running) : ∃ t, step s = .next t := by
  rcases hdec : decode s.fetchWindow with e | ⟨i, rest⟩
  · exact ⟨_, step_of_decode_error hrun hdec⟩
  · rw [step_of_decode_ok hrun hdec]
    exact exec_total i s

/-- Nothing follows a state that is HALTED (R110, R111). -/
theorem eq_of_reaches_of_ended {s t : State} (hended : s.Ended) (h : Reaches s t) : t = s := by
  induction h with
  | refl => rfl
  | tail _ hstep ih =>
    subst ih
    exact absurd hstep (step_ne_next_of_halted hended _)

/-! ## The pseudocode of R109 -/

theorem firstBadIndex_nil : firstBadIndex [] = none := rfl

/-- The fields are checked in their order (R105). -/
theorem firstBadIndex_cons (b : Byte) (fields : List Byte) :
    firstBadIndex (b :: fields) = if 7 < b.toNat then some b else firstBadIndex fields := by
  by_cases h : 7 < b.toNat
  · rw [if_pos h, firstBadIndex_of_head? rfl h]
  · rw [if_neg h]
    exact List.find?_cons_of_neg (by simpa using h)

/-- DISPATCH of R109 has each row of the dispatch table, and its two register-field flags say which byte the decoder
reports. -/
theorem pseudoDispatch_of_mem {row : Row} (h : row ∈ dispatchTable) : ∃ f1 f2,
    pseudoDispatch row.opcode = some ⟨row.opcode, row.format.width, f1, f2, row.build⟩ ∧
    ∀ b1 b2, firstBadIndex (row.format.registerFields b1 b2) =
      if f1 ∧ b1.toNat > 7 then some b1 else if f2 ∧ b2.toNat > 7 then some b2 else none := by
  rcases mem_dispatchTable h with rfl | rfl | rfl | rfl | rfl | rfl | rfl | rfl | rfl | rfl | rfl | rfl | rfl <;>
    refine ⟨_, _, rfl, fun b1 b2 => ?_⟩ <;>
    simp [Format.registerFields, firstBadIndex_cons, firstBadIndex_nil]

/-- DISPATCH of R109 has no other row. -/
theorem pseudoDispatch_eq_none {opcode : Byte} (h : dispatch? opcode = none) : pseudoDispatch opcode = none := by
  have hrows : ∀ row ∈ dispatchTable, opcode ≠ row.opcode := by
    simpa [dispatch?, eq_comm (a := opcode)] using h
  simp [dispatchTable] at hrows
  simp [pseudoDispatch, hrows]

/-- Operand fetch from a window that holds all operands takes the memory bytes after pc that the width reaches. -/
theorem takeOperands_window {s : State} {opcode : Byte} {tail : List Byte} (f : Format)
    (hwindow : s.fetchWindow = opcode :: tail) (hfit : s.pc.toNat + f.width ≤ 256) :
    ∃ b1 b2 rest, takeOperands f.width tail = .ok (b1, b2, rest) ∧
      (if f.width ≥ 2 then Memory.read s.mem (BitVec.ofNat 8 (s.pc.toNat + 1)) else 0) = b1 ∧
      (if f.width ≥ 3 then Memory.read s.mem (BitVec.ofNat 8 (s.pc.toNat + 2)) else 0) = b2 := by
  have hbyte (k : Nat) (b : Byte) (hk : k < 3) (hpc : s.pc.toNat + k < 256) (hb : s.fetchWindow[k]? = some b) :
      Memory.read s.mem (BitVec.ofNat 8 (s.pc.toNat + k)) = b := by
    rw [s.fetchWindow_getElem?, if_pos hk, s.byteAt?_of_lt hpc] at hb
    exact Option.some.inj hb
  obtain ⟨b1, b2, rest, htake, hbytes⟩ | ⟨hshort, -⟩ := takeOperands_cases f tail
  · refine ⟨b1, b2, rest, htake, ?_⟩
    obtain ⟨hw, rfl, rfl, -⟩ | ⟨hw, rfl, rfl⟩ | ⟨hw, rfl⟩ := hbytes
    · simp [hw]
    · simp [hw, hbyte 1 b1 (by omega) (by omega) (by rw [hwindow]; rfl)]
    · simp [hw, hbyte 1 b1 (by omega) (by omega) (by rw [hwindow]; rfl),
        hbyte 2 b2 (by omega) (by omega) (by rw [hwindow]; rfl)]
  · have hle := format_width_le_three f
    have hlen := s.fetchWindow_length
    rw [hwindow, List.length_cons] at hlen
    omega

/-- Once the opcode is known, the step does what R109's lines do with the operand bytes. -/
theorem step_eq_pseudoStep_of_row {s : State} (hrun : s.run = .running) (hpc : s.pc.toNat ≤ 255) {row : Row}
    (hrow : dispatch? (Memory.read s.mem (BitVec.ofNat 8 s.pc.toNat)) = some row) : step s = pseudoStep s := by
  obtain ⟨hmem, hopcode⟩ := dispatch?_some hrow
  obtain ⟨f1, f2, hpseudo, hbad⟩ := pseudoDispatch_of_mem hmem
  rw [hopcode] at hpseudo
  have hbyte := s.byteAt?_of_lt (a := s.pc.toNat) (by omega)
  have hoperand := operandFetchFaults_of_dispatch? hrow s
  have hle := format_width_le_three row.format
  simp only [pseudoStep, hrun, hpseudo, show ¬ s.pc.toNat > 255 by omega, if_false, reduceCtorEq]
  split
  · rename_i hend
    exact hoperand 1 hrun hbyte (by omega) (by omega) (by omega)
  · split
    · rename_i hend
      exact hoperand 2 hrun hbyte (by omega) (by omega) (by omega)
    · obtain ⟨tail, hwindow⟩ := List.head?_eq_some_iff.1 (s.fetchWindow_head?.trans hbyte)
      obtain ⟨b1, b2, rest, htake, hb1, hb2⟩ := takeOperands_window row.format hwindow (by omega)
      simp only [hb1, hb2]
      have hbad := hbad b1 b2
      split
      · rename_i hfirst
        rw [if_pos hfirst] at hbad
        exact step_of_decode_error hrun (hwindow ▸ decode_eq_registerIndexOutOfRange hrow htake hbad)
      · rename_i hfirst
        rw [if_neg hfirst] at hbad
        split
        · rename_i hsecond
          rw [if_pos hsecond] at hbad
          exact step_of_decode_error hrun (hwindow ▸ decode_eq_registerIndexOutOfRange hrow htake hbad)
        · rename_i hsecond
          rw [if_neg hsecond] at hbad
          exact step_of_decode_ok hrun (hwindow ▸ decode_eq_build hrow htake (firstBadIndex_none_iff.1 hbad))

/-- The machine's step is R109's. -/
theorem step_eq_pseudoStep (s : State) : step s = pseudoStep s := by
  cases hrun : s.run with
  | halted => simp [step, pseudoStep, hrun]
  | running =>
    by_cases hpc : 255 < s.pc.toNat
    · rw [step_of_pc_gt hrun hpc]
      simp [pseudoStep, hrun, hpc]
    · cases hrow : dispatch? (Memory.read s.mem (BitVec.ofNat 8 s.pc.toNat)) with
      | none =>
        rw [step_of_illegalOpcode hrun (s.byteAt?_of_lt (by omega)) ((dispatch?_eq_none_iff _).1 hrow)]
        simp only [pseudoStep, hrun, hpc, pseudoDispatch_eq_none hrow, if_false, reduceCtorEq]
      | some row => exact step_eq_pseudoStep_of_row hrun (by omega) hrow

/-! ## The obligations -/

/-- Settles O19: what decodes is well-formed, and the step is exec of it by its own definition. -/
theorem stepRunsDecodedInstruction : Obligations.StepRunsDecodedInstruction :=
  fun _ _ _ hrun hdec => ⟨wellFormed_of_decode hdec, step_of_decode_ok hrun hdec⟩

/-- Settles O22: the first operand byte is a register field in every instruction that has one, and ADD and CMP check a
second one after it. -/
theorem illFormedInstructionsRaiseRegisterFault : Obligations.IllFormedInstructionsRaiseRegisterFault := by
  intro i s h
  cases i <;> simp [Instr.wellFormed, IsRegIndex] at h
  case add a b => exact withReg_pair_of_bad h s _
  case cmp a b => exact withReg_pair_of_bad h s _
  all_goals exact ⟨_, List.find?_cons_of_pos (by simpa using h), withReg_of_gt h s _⟩

/-- Settles O23: an illegal opcode is reported before any operand is fetched, a missing operand before any field is
checked, and the first field before the second and before CALL's return address. -/
theorem firstFailingCheckIsReported : Obligations.FirstFailingCheckIsReported := by
  refine ⟨fun s opcode hrun hpc hbytes hillegal => ?_, fun s opcode b1 hrun hpc hbytes hb1 hopcode => ?_,
    fun s opcode b1 b2 hrun hbytes hb1 hb2 hopcode => ?_, fun s b1 hrun hpc hbytes hb1 => ?_⟩
  · exact step_of_illegalOpcode hrun (hbytes 0 opcode rfl) hillegal
  · have hfault : OperandFetchFaults opcode 3 := by
      rcases hopcode with rfl | rfl | rfl
      · exact operandFetchFaults_of_dispatch? dispatch?_ldi
      · exact operandFetchFaults_of_dispatch? dispatch?_add
      · exact operandFetchFaults_of_dispatch? dispatch?_cmp
    simpa [hpc] using hfault s 2 hrun (hbytes 0 opcode rfl) (by omega) (by omega) (by omega)
  · have hfield : FirstFieldChecked opcode 3 := by
      rcases hopcode with rfl | rfl
      · exact firstFieldChecked_of_dispatch? dispatch?_add fun _ _ => rfl
      · exact firstFieldChecked_of_dispatch? dispatch?_cmp fun _ _ => rfl
    exact hfield s _ b1 hrun hbytes rfl rfl rfl hb1
  · exact firstFieldChecked_of_dispatch? dispatch?_call (fun _ _ => rfl) s _ b1 hrun hbytes rfl rfl rfl hb1

/-- Settles O24: both tables have the same rows, and on each the decoder checks what the pseudocode checks, in its
order. -/
theorem stepIsTheSpecsPseudocode : Obligations.StepIsTheSpecsPseudocode :=
  step_eq_pseudoStep

/-- Settles O25: a RUNNING engine raises the decoder's fault or executes, and both answer a next state. -/
theorem onlyHaltedEngineHasNoStep : Obligations.OnlyHaltedEngineHasNoStep :=
  ⟨fun s hrun => by simp [step, hrun], fun _ => step_total, fun _ _ => eq_of_reaches_of_ended⟩

/-- Settles O26, instruction by instruction. -/
theorem everyInstructionAnswersNextState : Obligations.EveryInstructionAnswersNextState :=
  exec_total

/-- Settles O27: a fault record appears only by raising, whose whole effect is the halt and the record. -/
theorem faultsArePrecise : Obligations.FaultsArePrecise := by
  intro s t r hstep hnone hsome
  have hraise : ∃ c, t = s.raise c := by
    obtain ⟨-, ⟨e, -, rfl⟩ | ⟨i, rest, -, hexec⟩⟩ := step_next_cases hstep
    · exact ⟨_, rfl⟩
    · obtain ⟨-, -, hkept⟩ | ⟨-, -, hkept⟩ | hraise := exec_run_fault_cases hexec
      · simp [hkept, hnone] at hsome
      · simp [hkept, hnone] at hsome
      · exact hraise
  obtain ⟨c, rfl⟩ := hraise
  cases hsome
  exact ⟨rfl, rfl⟩

/-- Settles O29: only HLT and a CALL without a return address change the run state or the fault record. -/
theorem overflowAndStackWrapNeverHalt : Obligations.OverflowAndStackWrapNeverHalt := by
  intro i s hwf hhlt hcall
  obtain ⟨t, hexec⟩ := exec_total i s
  obtain ⟨-, hrun, hfault⟩ | ⟨hi, -⟩ | ⟨a, hi, hret, -⟩ := exec_run_fault_cases_of_wellFormed hwf hexec
  · exact ⟨t, hexec, hrun, hfault⟩
  · exact absurd hi hhlt
  · have hle := hcall a hi
    omega

end Sys2Proof.Machine
end

section
/-! Who writes and reads what: memory (R53), FL (R30, R31), the parameter, the output log (R40), and the stores that the
next fetch sees (R61, R251). -/

namespace Sys2Proof.Machine

/-! ## What exec writes -/

/-- exec keeps memory, or is PUSH or CALL and stores one byte at x[7] after the decrement (R53). -/
theorem exec_mem_cases {i : Instr} {s t : State} (h : exec i s = .next t) :
    t.mem = s.mem ∨
    ((i.opcode = 0x45 ∨ i.opcode = 0x50) ∧ ∃ v, t.mem = Memory.write s.mem (s.sp - 1) v) := by
  cases executes_of_exec h with
  | push r => exact .inr ⟨.inl rfl, _, by rw [State.advance_mem, State.setTop_mem, State.decSp_sp, State.decSp_mem]⟩
  | call r hret => exact .inr ⟨.inr rfl, _, by rw [State.jump_mem, State.setTop_mem, State.decSp_sp, State.decSp_mem]⟩
  | _ => exact .inl (by simp)

/-- exec keeps FL, or is a well-formed CMP with FLAGS_IN_R4 false and writes one of the three values to it (R30). -/
theorem exec_fl_cases {i : Instr} {s t : State} (h : exec i s = .next t) :
    t.fl = s.fl ∨
    (s.flagsInR4 = false ∧ i.opcode = 0xA7 ∧ (t.fl = 0x01 ∨ t.fl = 0x02 ∨ t.fl = 0x04)) := by
  cases executes_of_exec h with
  | cmp q r =>
    cases halias : s.flagsInR4 with
    | true => exact .inl (by simp [halias])
    | false =>
      refine .inr ⟨rfl, rfl, ?_⟩
      obtain ⟨-, hfl⟩ | ⟨-, hfl⟩ | ⟨-, hfl⟩ := aluCompare_cases (s.reg q) (s.reg r) <;> simp [halias, hfl]
  | _ => exact .inl (by simp)

/-- No instruction writes the parameter FLAGS_IN_R4. -/
theorem exec_flagsInR4 {i : Instr} {s t : State} (h : exec i s = .next t) : t.flagsInR4 = s.flagsInR4 := by
  cases executes_of_exec h <;> simp

/-! ## What a step writes -/

theorem step_flagsInR4 {s t : State} (h : step s = .next t) : t.flagsInR4 = s.flagsInR4 := by
  obtain ⟨-, ⟨e, -, rfl⟩ | ⟨i, rest, -, hexec⟩⟩ := step_next_cases h
  · rfl
  · exact exec_flagsInR4 hexec

theorem reaches_flagsInR4 {s t : State} (h : Reaches s t) : t.flagsInR4 = s.flagsInR4 := by
  induction h with
  | refl => rfl
  | tail _ hstep ih => exact (step_flagsInR4 hstep).trans ih

/-! ## FL is read through its EQ bit alone -/

/-- With FLAGS_IN_R4 false a write to FL forgets the byte that was there. -/
theorem setFlags_set_fl {s : State} (halias : s.flagsInR4 = false) (v w : Byte) :
    { s with fl := v }.setFlags w = s.setFlags w := by
  simp [State.setFlags, halias]

/-- From any FL with the same EQ bit an instruction does the same: a well-formed CMP ends in the very same state, and every
other instruction leaves each FL as it was. -/
theorem exec_fl_unread {i : Instr} {s t : State} {v : Byte} (halias : s.flagsInR4 = false)
    (heq : v.getLsbD 0 = s.fl.getLsbD 0) (h : exec i s = .next t) :
    (exec i { s with fl := v } = .next { t with fl := v } ∧ t.fl = s.fl ∧ (i.wellFormed = true → ∀ a b, i ≠ .cmp a b)) ∨
    (exec i { s with fl := v } = .next t ∧ i.wellFormed = true ∧ ∃ a b, i = .cmp a b) := by
  have hbit : { s with fl := v }.eqBit = s.eqBit := by
    simpa [State.eqBit, State.flags, halias] using heq
  cases executes_of_exec h with
  | ldi q w => exact .inl ⟨exec_ldi .., rfl, by simp⟩
  | prn q => exact .inl ⟨exec_prn .., rfl, by simp⟩
  | mul u w => exact .inl ⟨exec_mul .., rfl, by simp⟩
  | push q => exact .inl ⟨exec_push .., rfl, by simp⟩
  | pop q => exact .inl ⟨exec_pop .., rfl, by simp⟩
  | hlt => exact .inl ⟨exec_hlt .., rfl, by simp⟩
  | call q hret => exact .inl ⟨exec_call _ q hret, rfl, by simp⟩
  | callFault q hret => exact .inl ⟨exec_call_fault _ q hret, rfl, by simp⟩
  | ret => exact .inl ⟨exec_ret .., rfl, by simp⟩
  | add p q => exact .inl ⟨exec_add .., rfl, by simp⟩
  | cmp p q =>
    refine .inr ⟨?_, by simp [Instr.wellFormed, Fin.is_le], _, _, rfl⟩
    rw [exec_cmp, setFlags_set_fl halias]
    rfl
  | jeq q => exact .inl ⟨by rw [exec_jeq, hbit, jumpIf_eq, jumpIf_eq]; rfl, by simp, by simp⟩
  | jne q => exact .inl ⟨by rw [exec_jne, hbit, jumpIf_eq, jumpIf_eq]; rfl, by simp, by simp⟩
  | jmp q => exact .inl ⟨exec_jmp .., rfl, by simp⟩
  | illFormed _ b hbad _ hexec => exact .inl ⟨hexec _, rfl, by simp [hbad]⟩

/-! ## The output log is never read (R40) -/

theorem setFlags_set_out (s : State) (o : List Byte) (v : Byte) :
    { s with out := o }.setFlags v = { s.setFlags v with out := o } := by
  unfold State.setFlags; split <;> rfl

/-- exec keeps the output log, or is PRN and appends the register; from any other log it does the same to that one. -/
theorem exec_out_cases {i : Instr} {s t : State} (o : List Byte) (h : exec i s = .next t) :
    (t.out = s.out ∧ exec i { s with out := o } = .next { t with out := o }) ∨
    ∃ r, i = .prn (regByte r) ∧ t.out = s.out ++ [s.reg r] ∧
      exec i { s with out := o } = .next { t with out := o ++ [s.reg r] } := by
  cases executes_of_exec h with
  | ldi q v => exact .inl ⟨rfl, exec_ldi ..⟩
  | prn q => exact .inr ⟨q, rfl, rfl, exec_prn ..⟩
  | mul u v => exact .inl ⟨rfl, exec_mul ..⟩
  | push q => exact .inl ⟨rfl, exec_push ..⟩
  | pop q => exact .inl ⟨rfl, exec_pop ..⟩
  | hlt => exact .inl ⟨rfl, exec_hlt ..⟩
  | call q hret => exact .inl ⟨rfl, exec_call _ q hret⟩
  | callFault q hret => exact .inl ⟨rfl, exec_call_fault _ q hret⟩
  | ret => exact .inl ⟨rfl, exec_ret ..⟩
  | add p q => exact .inl ⟨rfl, exec_add ..⟩
  | cmp p q => exact .inl ⟨by simp, by rw [exec_cmp, setFlags_set_out s o]; rfl⟩
  | jeq q => exact .inl ⟨by simp, by rw [exec_jeq, jumpIf_eq, jumpIf_eq]; rfl⟩
  | jne q => exact .inl ⟨by simp, by rw [exec_jne, jumpIf_eq, jumpIf_eq]; rfl⟩
  | jmp q => exact .inl ⟨rfl, exec_jmp ..⟩
  | illFormed _ b _ _ hexec => exact .inl ⟨rfl, hexec _⟩

/-- A step does to any output log what it does to its own: it appends nothing, or the register of the PRN at pc. -/
theorem step_out_cases {s t : State} (o : List Byte) (h : step s = .next t) :
    (t.out = s.out ∧ step { s with out := o } = .next { t with out := o }) ∨
    ∃ r, s.BytesAtPc [0x47, regByte r] ∧ t.out = s.out ++ [s.reg r] ∧
      step { s with out := o } = .next { t with out := o ++ [s.reg r] } := by
  obtain ⟨hrun, ⟨e, hdec, rfl⟩ | ⟨i, rest, hdec, hexec⟩⟩ := step_next_cases h
  · exact .inl ⟨rfl, step_of_decode_error (s := { s with out := o }) hrun hdec⟩
  · have hstep : step { s with out := o } = exec i { s with out := o } :=
      step_of_decode_ok (s := { s with out := o }) hrun hdec
    rw [hstep]
    obtain hkept | ⟨r, rfl, hprn⟩ := exec_out_cases o hexec
    · exact .inl hkept
    · exact .inr ⟨r, s.bytesAtPc_of_window (encode_append_of_decode hdec).symm, hprn⟩

/-! ## The next fetch sees a store (R61, R251) -/

/-- What the step does on PUSH r, for r other than 7: the byte stored is x[r], where the decremented x[7] points. -/
theorem step_push {s t : State} {r : RegIdx} (hwf : Memory.wf s.mem = true) (hrun : s.run = .running)
    (hbytes : s.BytesAtPc [0x45, regByte r]) (hr : r ≠ 7) (h : step s = .next t) :
    t.pc = s.pc + 2 ∧ Memory.read t.mem (s.sp - 1) = s.reg r ∧ t.reg r = s.reg r := by
  obtain ⟨hruns, hexec, -, -⟩ := pushStoresBelowStackPointer
  obtain ⟨u, hu, -, hstored, hpc, hregs, -, -⟩ := hexec r s hwf
  rw [hruns r s hrun hbytes, hu] at h
  cases h
  exact ⟨hpc, by rw [hstored, if_neg hr], hregs r (by simpa using hr)⟩

/-- The byte stored at the address after pc + k, which is the decremented x[7] below. -/
theorem State.byteAt?_of_sp {s t : State} {k : Nat} (hsp : s.sp.toNat = k + 1) :
    t.byteAt? k = some (Memory.read t.mem (s.sp - 1)) := by
  have hlt : k < 256 := by omega
  have haddr : s.sp - 1 = BitVec.ofNat 8 k := by
    apply BitVec.eq_of_toNat_eq
    bv_omega
  rw [t.byteAt?_of_lt hlt, haddr]

/-! ## The obligations -/

/-- Settles O30: a fault keeps FL, and of the instructions CMP alone writes it. -/
theorem onlyCmpWritesFlags : Obligations.OnlyCmpWritesFlags := by
  intro s t hstep hchanged
  obtain ⟨-, ⟨e, -, rfl⟩ | ⟨i, rest, hdec, hexec⟩⟩ := step_next_cases hstep
  · exact absurd rfl hchanged
  · obtain hkept | ⟨halias, hopcode, hfl⟩ := exec_fl_cases hexec
    · exact absurd hkept hchanged
    · exact ⟨halias, hopcode ▸ byteAt?_pc_of_decode hdec, hfl⟩

/-- Settles O31: the only reads of FL are the EQ bit of JEQ and JNE, and CMP overwrites the whole byte. -/
theorem onlyTheEqualBitIsRead : Obligations.OnlyTheEqualBitIsRead := by
  intro i s t v halias heq hexec
  obtain ⟨hsame, hkept, hnot⟩ | ⟨hsame, hwf, a, b, hi⟩ := exec_fl_unread halias heq hexec
  · refine ⟨_, hsame, rfl, fun ⟨a, b, hi⟩ hwf => absurd hi (hnot hwf a b), fun _ => ⟨rfl, hkept⟩⟩
  · refine ⟨_, hsame, rfl, fun _ _ => rfl, ?_⟩
    rintro (hnot | hbad)
    · exact absurd hi (hnot a b)
    · simp [hwf] at hbad

/-- Settles O32: no instruction writes the parameter, and only with the parameter false is FL written. -/
theorem aliasedFlagsAreRegisterFour : Obligations.AliasedFlagsAreRegisterFour := by
  intro i s t halias hexec
  have halias' : t.flagsInR4 = true := (exec_flagsInR4 hexec).trans halias
  refine ⟨halias', State.flags_of_flagsInR4 halias', ?_⟩
  obtain hkept | ⟨hfalse, -⟩ := exec_fl_cases hexec
  · exact hkept
  · simp [halias] at hfalse

/-- Settles O33, by induction on the run. -/
theorem flagsParameterIsConstant : Obligations.FlagsParameterIsConstant :=
  fun _ _ => reaches_flagsInR4

/-- Settles O34: a fault keeps memory, and PUSH and CALL write the one byte at the decremented x[7]. -/
theorem onlyPushAndCallWriteMemory : Obligations.OnlyPushAndCallWriteMemory := by
  intro s t hwf hstep a hchanged
  obtain ⟨-, ⟨e, -, rfl⟩ | ⟨i, rest, hdec, hexec⟩⟩ := step_next_cases hstep
  · exact absurd rfl hchanged
  · obtain hkept | ⟨hopcode, v, hstore⟩ := exec_mem_cases hexec
    · exact absurd (by rw [hkept]) hchanged
    · rw [byteAt?_pc_of_decode hdec]
      refine ⟨?_, hopcode.imp (congrArg some) (congrArg some)⟩
      by_contra hne
      exact hchanged (by rw [hstore, Memory.read_write_other hwf v hne])

/-- Settles O35: the step's answer with another output log is its own answer with the same bytes appended to that
log. -/
theorem outputIsAppendedByPrnAndNeverRead : Obligations.OutputIsAppendedByPrnAndNeverRead := by
  refine ⟨fun s t hstep => ?_, fun s t o hstep => ?_⟩
  · obtain ⟨hkept, -⟩ | ⟨r, hbytes, hout, -⟩ := step_out_cases s.out hstep
    · exact .inl hkept
    · exact .inr ⟨r, hbytes, hout⟩
  · obtain ⟨hkept, hother⟩ | ⟨r, -, hout, hother⟩ := step_out_cases o hstep
    · exact ⟨[], by simpa using hkept, by simpa using hother⟩
    · exact ⟨[s.reg r], hout, hother⟩

/-- Settles O36: the stored byte is read back at the next opcode's address, or at the operand's own, which the push had
already decoded. -/
theorem fetchSeesStoresAtOnce : Obligations.FetchSeesStoresAtOnce := by
  refine ⟨fun s t r hwf hrun hbytes hr hsp hstep => ?_, fun s t r hwf hrun hbytes hr hsp hstep => ?_⟩
  · obtain ⟨hpc, hstored, -⟩ := step_push hwf hrun hbytes hr hstep
    have hnext : t.pc.toNat = s.pc.toNat + 2 := by
      rw [hpc]
      bv_omega
    exact ⟨hnext, by rw [t.fetchWindow_head?, hnext, State.byteAt?_of_sp hsp, hstored]⟩
  · obtain ⟨hpc, hstored, hreg⟩ := step_push hwf hrun hbytes hr hstep
    exact ⟨hpc, by rw [State.byteAt?_of_sp hsp, hstored], hreg⟩

end Sys2Proof.Machine
end

section
/-! The invariant of the machine (R30, R36, R50, R201): it holds at reset and every step keeps it. What it says
of the exit status (R221), and equal memories. -/

namespace Sys2Proof.Machine

/-! ## At reset, and after a load -/

/-- Whatever canonical memory is loaded after reset, the invariant holds. -/
theorem inv_reset_with_mem {m : Memory} (h : Memory.wf m = true) : State.Inv { State.reset with mem := m } where
  mem_wf := h
  pc_le := by simp [State.reset]
  fl_legal _ := .inl rfl
  fl_absent _ := rfl
  fault_halts hfault := absurd rfl hfault
  fault_fits _ hfault := nomatch hfault

/-! ## Faults of the decoder -/

/-- A RUNNING engine that meets the invariant has no fault record. -/
theorem State.Inv.fault_eq_none {s : State} (hinv : s.Inv) (hrun : s.run = .running) : s.fault = none := by
  by_contra hfault
  simp [hinv.fault_halts hfault] at hrun

/-- Raising a fault that fits keeps the invariant. -/
theorem State.Inv.raise {s : State} (hinv : s.Inv) {c : FaultCause} (hfits : (s.raise c).RecordFits ⟨c, s.pc⟩) :
    (s.raise c).Inv where
  mem_wf := hinv.mem_wf
  pc_le := hinv.pc_le
  fl_legal := hinv.fl_legal
  fl_absent := hinv.fl_absent
  fault_halts _ := rfl
  fault_fits r hr := by
    cases hr
    exact hfits

/-- The missing byte of an instruction at most 3 bytes wide is the one at address 256. -/
theorem pc_add_eq_of_missing {s : State} (hpc : s.pc.toNat ≤ 256) (hlen : s.fetchWindow.length < 3) :
    s.pc.toNat + s.fetchWindow.length = 256 := by
  rw [s.fetchWindow_length] at hlen ⊢
  omega

/-- What the decoder reports fits the bytes at pc. -/
theorem recordFits_of_decode_error {s : State} (hpc : s.pc.toNat ≤ 256) {e : DecodeError}
    (h : decode s.fetchWindow = .error e) : (s.raise (decodeFault s.pc e)).RecordFits ⟨decodeFault s.pc e, s.pc⟩ := by
  refine ⟨rfl, ?_⟩
  obtain ⟨hwindow, rfl⟩ | ⟨opcode, tail, hwindow, hnone, rfl⟩ | ⟨row, -, tail, hwindow, hshort, rfl⟩ |
    ⟨row, -, b1, b2, tail, rest, b, -, -, hbad, rfl⟩ := decode_error_cases h
  · have hend := pc_add_eq_of_missing hpc (by simp [hwindow])
    rw [hwindow] at hend
    exact hend
  · have hbyte : s.byteAt? s.pc.toNat = some opcode := by
      rw [← s.fetchWindow_head?, hwindow]
      rfl
    exact ⟨hbyte, (dispatch?_eq_none_iff opcode).1 hnone⟩
  · have hle := format_width_le_three row.format
    have hlen : s.fetchWindow.length = tail.length + 1 := by rw [hwindow, List.length_cons]
    have hend := pc_add_eq_of_missing hpc (by omega)
    rw [hlen] at hend
    exact hend
  · exact (firstBadIndex_some hbad).2

/-! ## What a decoded instruction keeps -/

/-- All bytes of an instruction that decodes lie inside memory. -/
theorem pc_add_length_le_of_decode {s : State} {i : Instr} {rest : List Byte}
    (h : decode s.fetchWindow = .ok (i, rest)) : s.pc.toNat + (encode i).length ≤ 256 := by
  have hlen := congrArg List.length (encode_append_of_decode h)
  rw [List.length_append, s.fetchWindow_length] at hlen
  have hpos : 0 < (encode i).length := Nat.succ_pos _
  omega

/-- A transfer of control goes to a byte (R36, R160). -/
theorem setWidth_toNat_le (v : Byte) : (v.setWidth 9).toNat ≤ 256 := by
  bv_omega

/-- An advance by the width of an instruction inside memory stays at most at 256 (R36). -/
theorem pc_add_ofNat_toNat_le {pc : PC} {w : Nat} (h : pc.toNat + w ≤ 256) : (pc + BitVec.ofNat 9 w).toNat ≤ 256 := by
  bv_omega

/-- An instruction inside memory leaves pc at most 256 (R36). -/
theorem exec_pc_le {i : Instr} {s t : State} (h : exec i s = .next t)
    (hfit : s.pc.toNat + (encode i).length ≤ 256) : t.pc.toNat ≤ 256 := by
  have hjumpIf (c : Bool) (r : RegIdx) (hw : s.pc.toNat + 2 ≤ 256) : (jumpIf c r s).pc.toNat ≤ 256 := by
    cases c
    · exact pc_add_ofNat_toNat_le hw
    · exact setWidth_toNat_le _
  cases executes_of_exec h with
  | call r hret => exact setWidth_toNat_le _
  | callFault r hret => exact (Nat.le_add_right _ _).trans hfit
  | ret => exact setWidth_toNat_le _
  | cmp q r =>
    rw [State.advance_pc, State.setFlags_pc]
    exact pc_add_ofNat_toNat_le hfit
  | jeq r => exact hjumpIf _ r hfit
  | jne r => exact hjumpIf _ r hfit
  | jmp r => exact setWidth_toNat_le _
  | illFormed => exact (Nat.le_add_right _ _).trans hfit
  | _ => exact pc_add_ofNat_toNat_le hfit

/-- An instruction keeps the canonical form of memory. -/
theorem exec_mem_wf {i : Instr} {s t : State} (h : exec i s = .next t) (hwf : Memory.wf s.mem = true) :
    Memory.wf t.mem = true := by
  obtain hkept | ⟨-, v, hstore⟩ := exec_mem_cases h
  · rwa [hkept]
  · rw [hstore]
    exact Memory.write_wf hwf _ v

/-- Executing what was decoded keeps the invariant: the only fault left is CALL's, at a return address of 256. -/
theorem State.Inv.exec_next {s t : State} (hinv : s.Inv) (hrun : s.run = .running) {i : Instr} {rest : List Byte}
    (hdec : decode s.fetchWindow = .ok (i, rest)) (h : exec i s = .next t) : t.Inv := by
  have hfit := pc_add_length_le_of_decode hdec
  obtain hfault | ⟨a, rfl, hret, rfl⟩ : t.fault = s.fault ∨ ∃ a, i = .call a ∧ 256 ≤ s.pc.toNat + 2 ∧
      t = s.raise (.addressOutOfRange (s.pc.toNat + 2)) := by
    obtain ⟨-, -, hkept⟩ | ⟨-, -, hkept⟩ | hcall := exec_run_fault_cases_of_wellFormed (wellFormed_of_decode hdec) h
    · exact .inl hkept
    · exact .inl hkept
    · exact .inr hcall
  · have hnone : t.fault = none := hfault.trans (hinv.fault_eq_none hrun)
    refine ⟨exec_mem_wf h hinv.mem_wf, exec_pc_le h hfit, fun halias => ?_, fun halias => ?_,
      fun hsome => absurd hnone hsome, fun r hr => by simp [hnone] at hr⟩
    · rw [exec_flagsInR4 h] at halias
      obtain hkept | ⟨-, -, hfl⟩ := exec_fl_cases h
      · rw [hkept]
        exact hinv.fl_legal halias
      · exact .inr hfl
    · rw [exec_flagsInR4 h] at halias
      obtain hkept | ⟨hfalse, -⟩ := exec_fl_cases h
      · rw [hkept]
        exact hinv.fl_absent halias
      · simp [halias] at hfalse
  · exact hinv.raise ⟨rfl, Nat.le_antisymm hfit hret⟩

theorem State.Inv.step_next {s t : State} (hinv : s.Inv) (h : step s = .next t) : t.Inv := by
  obtain ⟨hrun, ⟨e, hdec, rfl⟩ | ⟨i, rest, hdec, hexec⟩⟩ := step_next_cases h
  · exact hinv.raise (recordFits_of_decode_error hinv.pc_le hdec)
  · exact hinv.exec_next hrun hdec hexec

/-! ## The end of a run (R221) -/

/-- HLT at pc leaves no fault record where there was none. -/
theorem step_hlt_fault {s t : State} (h : step s = .next t) (hnone : s.fault = none)
    (hhlt : s.byteAt? s.pc.toNat = some 0x01) : t.fault = none := by
  obtain ⟨tail, hwindow⟩ := List.head?_eq_some_iff.1 (s.fetchWindow_head?.trans hhlt)
  have hdec : decode s.fetchWindow = .ok (.hlt, tail) := by
    rw [hwindow]
    exact decode_hlt tail
  obtain ⟨hrun, -⟩ := step_next_cases h
  rw [step_of_decode_ok hrun hdec, exec_hlt] at h
  cases h
  exact hnone

/-- Every fault ends a run with status 1, UnknownOpcode by R221 itself and the others by FAULT_EXIT_STATUS. -/
theorem exitStatus_of_fault {s : State} {r : FaultRecord} (hrun : s.run = .halted) (hfault : s.fault = some r) :
    s.status.exitStatus = some 1 := by
  obtain ⟨cause, pc⟩ := r
  simp only [State.status, hrun, hfault]
  cases cause <;> rfl

/-! ## Equal memories -/

/-- A list that reads like a listed cell at its address is not canonical from above that address. -/
theorem not_wfCellsFrom_of_read {b : Nat} {w : Byte} {m n : List Host.Cell} (hw : w ≠ 0x00)
    (hread : readCells b ((b, w) :: m) = readCells b n) : wfCellsFrom (b + 1) n ≠ true := by
  intro hwf
  rw [readCells_eq_default_of_lt hwf (Nat.lt_succ_self b)] at hread
  exact hw (by simpa [readCells] using hread)

/-- A canonical list that starts with a cell is canonical from that cell's address. -/
theorem wfCellsFrom_head {lo b : Nat} {w : Byte} {rest : List Host.Cell} (h : wfCellsFrom lo ((b, w) :: rest) = true)
    {lo' : Nat} (hlo : lo' ≤ b) : wfCellsFrom lo' ((b, w) :: rest) = true := by
  obtain ⟨-, hrest⟩ := wfCellsFrom_cons.1 h
  exact wfCellsFrom_cons.2 ⟨hlo, hrest⟩

/-- Canonical lists that read the same at every address are the same: their first cells are, and so are the rests. -/
theorem cells_eq_of_reads_eq : ∀ {lo lo' : Nat} {m n : List Host.Cell}, wfCellsFrom lo m = true →
    wfCellsFrom lo' n = true → (∀ a, readCells a m = readCells a n) → m = n
  | _, _, [], [], _, _, _ => rfl
  | _, _, [], (c, v) :: n, _, hn, hread => by
    obtain ⟨-, -, hv, -⟩ := wfCellsFrom_cons.1 hn
    exact absurd rfl (not_wfCellsFrom_of_read hv (hread c).symm)
  | _, _, (b, w) :: m, [], hm, _, hread => by
    obtain ⟨-, -, hw, -⟩ := wfCellsFrom_cons.1 hm
    exact absurd rfl (not_wfCellsFrom_of_read hw (hread b))
  | _, _, (b, w) :: m, (c, v) :: n, hm, hn, hread => by
    obtain ⟨-, -, hw, hm'⟩ := wfCellsFrom_cons.1 hm
    obtain ⟨-, -, hv, hn'⟩ := wfCellsFrom_cons.1 hn
    have hbc : b = c := by
      obtain hlt | heq | hgt := Nat.lt_trichotomy b c
      · exact absurd (wfCellsFrom_head hn hlt) (not_wfCellsFrom_of_read hw (hread b))
      · exact heq
      · exact absurd (wfCellsFrom_head hm hgt) (not_wfCellsFrom_of_read hv (hread c).symm)
    subst hbc
    have hwv : w = v := by simpa [readCells] using hread b
    have hrest (a : Nat) : readCells a m = readCells a n := by
      by_cases hab : a = b
      · subst hab
        rw [readCells_eq_default_of_lt hm' (Nat.lt_succ_self a), readCells_eq_default_of_lt hn' (Nat.lt_succ_self a)]
      · simpa [readCells, hab] using hread a
    rw [hwv, cells_eq_of_reads_eq hm' hn' hrest]

/-- Outside memory a canonical list reads 0x00. -/
theorem readCells_of_ge : ∀ {lo : Nat} {m : List Host.Cell} {a : Nat}, wfCellsFrom lo m = true → 256 ≤ a →
    readCells a m = 0x00
  | _, [], _, _, _ => rfl
  | _, (b, w) :: m, a, hm, ha => by
    obtain ⟨-, hb, -, hm'⟩ := wfCellsFrom_cons.1 hm
    rw [readCells, if_neg (by omega), readCells_of_ge hm' ha]

/-! ## The obligations -/

/-- Settles O42: reset has the empty memory, which is canonical. -/
theorem invariantAtReset : Obligations.InvariantAtReset :=
  inv_reset_with_mem (m := []) rfl

/-- Settles O43: what the decoder or CALL reports fits the bytes at pc, and every other instruction writes FL and memory
legally and leaves pc inside its bounds. -/
theorem stepKeepsInvariant : Obligations.StepKeepsInvariant :=
  fun _ _ hinv h => hinv.step_next h

/-- Settles O44: reads inside memory are given, and outside it both read 0x00. -/
theorem equalReadsMeanEqualMemories : Obligations.EqualReadsMeanEqualMemories := by
  intro m n hm hn hread
  refine cells_eq_of_reads_eq hm hn fun a => ?_
  by_cases ha : a < 256
  · simpa [Memory.read, Nat.mod_eq_of_lt ha] using hread (BitVec.ofNat 8 a)
  · rw [readCells_of_ge hm (by omega), readCells_of_ge hn (by omega)]

/-- Settles O48: HLT at pc leaves no record, and whatever else halts the engine leaves one. -/
theorem exitStatusTellsHltFromFault : Obligations.ExitStatusTellsHltFromFault := by
  intro s t hinv hstep
  obtain ⟨hrun, -⟩ := step_next_cases hstep
  have hnone := hinv.fault_eq_none hrun
  refine ⟨fun ht => ?_, fun ht hhlt => ?_, fun ht hother => ?_⟩
  · simp [State.status, Status.exitStatus, ht]
  · simp [State.status, Status.exitStatus, ht, step_hlt_fault hstep hnone hhlt]
  · obtain hhlt | hfault := (step_halted_iff hstep hnone).1 ht
    · exact absurd hhlt hother
    · obtain ⟨r, hr⟩ := Option.ne_none_iff_exists'.1 hfault
      exact exitStatus_of_fault ht hr

end Sys2Proof.Machine
end

section
/-! The loader (R231, R240 to R243): what a line, a file and an image put into memory, and the load of one
instruction. -/

namespace Sys2Proof.Machine

/-! ## Placed bytes in memory -/

/-- After reset the byte placed at k is read at address k. -/
theorem read_place_nil (image : List Byte) (a : Byte) :
    Memory.read (Memory.place [] 0 image) a = (image[a.toNat]?).getD 0x00 := by
  rw [Memory.read_place image 0 a rfl, if_pos (Nat.zero_le _), Nat.sub_zero, Memory.read_nil]

/-- A table word placed at pc, where it fits, is what the next fetch reads. -/
theorem bytesAtPc_withFetchWord {s : State} (hwf : Memory.wf s.mem = true) (hpc : s.pc.toNat ≤ 253) (nbits w : Nat) :
    (s.withFetchWord nbits w).BytesAtPc (tableBytes nbits w) := by
  intro k b hk
  have hk3 : k < 3 := (List.getElem?_eq_some_iff.1 hk).1
  have haddr : (BitVec.ofNat 8 (s.pc.toNat + k)).toNat = s.pc.toNat + k := by
    rw [BitVec.toNat_ofNat, Nat.mod_eq_of_lt (by omega)]
  have hread : Memory.read (Memory.place s.mem s.pc.toNat (tableBytes nbits w))
      (BitVec.ofNat 8 (s.pc.toNat + k)) = b := by
    rw [Memory.read_place _ _ _ hwf, haddr, if_pos (Nat.le_add_right _ _), Nat.add_sub_cancel_left, hk]
    rfl
  exact (State.byteAt?_of_lt _ (show s.pc.toNat + k < 256 by omega)).trans (congrArg some hread)

/-- What a table word decodes to is what its bytes begin with. -/
theorem decode_of_decodeTableWord {nbits w : Nat} {i : Instr} (h : decodeTableWord nbits w = some i) :
    ∃ rest, decode (tableBytes nbits w) = .ok (i, rest) := by
  unfold decodeTableWord at h
  split at h
  · rename_i j rest hdec
    cases h
    exact ⟨rest, hdec⟩
  · cases h

/-! ## One line (R240) -/

theorem parseLine_of_blank {line : List Char} (h : trim (stripComment line) = []) : parseLine line = .ok none := by
  simp [parseLine, h]

/-- A line whose text is no base-2 literal is malformed. -/
theorem parseLine_of_malformed {line : List Char} (hne : trim (stripComment line) ≠ [])
    (h : binaryValue 0 (trim (stripComment line)) = none) : parseLine line = .error .malformedLine := by
  unfold parseLine
  split
  · contradiction
  · rename_i c cs htext
    rw [htext] at h
    simp [h]

/-- A line whose text is a base-2 literal stands for its value, if that is a byte. -/
theorem parseLine_of_value {line : List Char} {v : Nat} (hne : trim (stripComment line) ≠ [])
    (h : binaryValue 0 (trim (stripComment line)) = some v) :
    parseLine line = if v ≤ 255 then .ok (some (BitVec.ofNat 8 v)) else .error .literalTooLarge := by
  unfold parseLine
  split
  · contradiction
  · rename_i c cs htext
    rw [htext] at h
    simp [h]

/-- No numeral has another character than its two digits. -/
theorem binaryValue_eq_none {digits : List Char} {c : Char} (hmem : c ∈ digits) (h0 : c ≠ '0') (h1 : c ≠ '1')
    (acc : Nat) : binaryValue acc digits = none := by
  induction digits generalizing acc with
  | nil => cases hmem
  | cons d ds ih =>
    cases hmem with
    | head => simp [binaryValue, h0, h1]
    | tail _ hmem => simp [binaryValue, ih hmem]

/-- A numeral is read as the number it is. -/
theorem binaryValue_zero {digits : List Char} (h : ∀ c ∈ digits, c = '0' ∨ c = '1') :
    binaryValue 0 digits = some (binaryNumeral digits) := by
  rw [binaryValue_eq_binaryNumeral 0 digits h, Nat.zero_mul, Nat.zero_add]

/-- Text without white space or a comment is all that is left of its line. -/
theorem trim_stripComment_eq_self {line : List Char} (h : ∀ c ∈ line, c ≠ '#' ∧ isBlank c = false) :
    trim (stripComment line) = line := by
  have hstrip : stripComment line = line := List.takeWhile_eq_self_iff.2 fun c hc => by simpa using (h c hc).1
  rw [hstrip, trim_eq_self line fun c hc => (h c hc).2]

/-- The digits of a numeral are neither a line feed nor a comment nor white space. -/
theorem digit_not_special {c : Char} (h : c = '0' ∨ c = '1') : c ≠ '\n' ∧ c ≠ '#' ∧ isBlank c = false := by
  rcases h with rfl | rfl <;> decide

/-- White space inside a line is neither a line feed nor a comment. -/
theorem blank_not_special {c : Char} (h : isBlank c = true) : c ≠ '\n' ∧ c ≠ '#' := by
  constructor <;> rintro rfl <;> simp [isBlank] at h

/-- A file of one line without its line feed. -/
theorem parseImage_single {line : List Char} (h : '\n' ∉ line) {e : LoadError} (hline : parseLine line = .error e) :
    parseImage line = .error e := by
  simp [parseImage, splitLines_single line h, parseLines, hline]

/-! ## Files of accepted lines -/

section
variable {l : ImageLine} (h : l.Ok)
include h

/-- White space around the literal and the comment after it are dropped, and only they. -/
theorem ImageLine.Ok.trim_text : trim (stripComment l.text) = l.digits := by
  have hnot : ∀ c ∈ l.before ++ l.digits ++ l.after, (c != '#') = true := by
    intro c hc
    simp only [List.mem_append] at hc
    obtain (hc | hc) | hc := hc
    · simpa using (blank_not_special (h.before_blank c hc)).2
    · simpa using (digit_not_special (h.digits_binary c hc)).2.1
    · simpa using (blank_not_special (h.after_blank c hc)).2
  have hstrip : stripComment l.text = l.before ++ l.digits ++ l.after := by
    rw [stripComment, ImageLine.text, List.takeWhile_append_of_pos hnot]
    cases l.comment <;> simp
  have hdigits : ∀ c ∈ l.digits, isBlank c = false := fun c hc => (digit_not_special (h.digits_binary c hc)).2.2
  rw [hstrip, trim_padded _ _ _ h.before_blank hdigits h.after_blank]

theorem ImageLine.Ok.newline_not_mem : '\n' ∉ l.text := by
  intro hmem
  simp only [ImageLine.text, List.mem_append] at hmem
  obtain ((hc | hc) | hc) | hc := hmem
  · exact (blank_not_special (h.before_blank _ hc)).1 rfl
  · exact (digit_not_special (h.digits_binary _ hc)).1 rfl
  · exact (blank_not_special (h.after_blank _ hc)).1 rfl
  · cases hcomment : l.comment with
    | none => simp [hcomment] at hc
    | some comment =>
      rw [hcomment] at hc
      simp at hc
      exact h.comment_in_line comment hcomment hc

/-- An accepted line stands for its literal, or for nothing where it has none. -/
theorem ImageLine.Ok.parseLine_text : parseLine l.text = .ok l.byte? := by
  by_cases hd : l.digits = []
  · rw [parseLine_of_blank (h.trim_text.trans hd), ImageLine.byte?, if_pos hd]
  · have hne : trim (stripComment l.text) ≠ [] := by rwa [h.trim_text]
    have hvalue : binaryValue 0 (trim (stripComment l.text)) = some (binaryNumeral l.digits) := by
      rw [h.trim_text, binaryValue_zero h.digits_binary]
    rw [parseLine_of_value hne hvalue, if_pos h.digits_le, ImageLine.byte?, if_neg hd]

end

/-- Accepted lines stand for their literals in order. -/
theorem parseLines_map_text {lines : List ImageLine} (h : ∀ l ∈ lines, l.Ok) :
    parseLines (lines.map ImageLine.text) = .ok (lines.filterMap ImageLine.byte?) := by
  induction lines with
  | nil => rfl
  | cons l ls ih =>
    have hl := (h l (by simp)).parseLine_text
    have hls := ih fun k hk => h k (by simp [hk])
    cases hbyte : l.byte? <;> simp [parseLines, hl, hls, hbyte]

/-- A file is cut back into the lines it was written from. -/
theorem splitLines_flatMap_text {lines : List ImageLine} {last : ImageLine} (h : ∀ l ∈ lines, l.Ok) (hlast : last.Ok) :
    splitLines (lines.flatMap (fun l => l.text ++ ['\n']) ++ last.text) = (lines ++ [last]).map ImageLine.text := by
  induction lines with
  | nil => exact splitLines_single _ hlast.newline_not_mem
  | cons l ls ih =>
    have hls := ih fun k hk => h k (by simp [hk])
    have hl := splitLines_append l.text (ls.flatMap (fun l => l.text ++ ['\n']) ++ last.text)
      (h l (by simp)).newline_not_mem
    rw [hls] at hl
    simpa using hl

/-- The numeral of the n low bits of a number, most significant first, is the number mod 2^n. -/
theorem binaryNumeral_bits (x n : Nat) :
    binaryNumeral ((List.range n).map fun k => if x.testBit (n - 1 - k) then '1' else '0') = x % 2 ^ n := by
  induction n with
  | zero => simp [binaryNumeral, Nat.mod_one]
  | succ n ih =>
    have htail : (List.range n).map ((fun k => if x.testBit (n + 1 - 1 - k) then '1' else '0') ∘ Nat.succ) =
        (List.range n).map fun k => if x.testBit (n - 1 - k) then '1' else '0' :=
      List.map_congr_left fun k _ => by simp [show n - (k + 1) = n - 1 - k by omega]
    rw [List.range_succ_eq_map, List.map_cons, List.map_map, htail, binaryNumeral, ih, Nat.mod_pow_succ,
      ← Nat.toNat_testBit, Nat.add_comm]
    cases hbit : x.testBit n <;> simp [hbit]

/-- An 8-digit literal is written with its eight bits (R240). -/
theorem binaryNumeral_binaryLiteral (b : Byte) : binaryNumeral (binaryLiteral b) = b.toNat :=
  (binaryNumeral_bits b.toNat 8).trans (Nat.mod_eq_of_lt b.isLt)

/-! ## The obligations -/

/-- Settles O41: reset's memory lists no cell, and the other fields are its literals. -/
theorem resetLeavesZeroMemoryAndRunning : Obligations.ResetLeavesZeroMemoryAndRunning :=
  ⟨Memory.read_nil, rfl, rfl, rfl, rfl, rfl, rfl⟩

/-- Settles O45: the load places the image from address 0 in empty memory. -/
theorem loadFillsMemoryFromZero : Obligations.LoadFillsMemoryFromZero := by
  intro image hlen
  refine ⟨{ State.reset with mem := Memory.place [] 0 image }, if_pos hlen, fun k b hk => ?_, fun a ha => ?_, rfl,
    inv_reset_with_mem (Memory.place_wf image 0 rfl)⟩
  · have hlt : k < image.length := (List.getElem?_eq_some_iff.1 hk).1
    rw [read_place_nil, BitVec.toNat_ofNat, Nat.mod_eq_of_lt (by omega), hk]
    rfl
  · rw [read_place_nil, List.getElem?_eq_none ha]
    rfl

/-- Settles O46: an image that is too long fails to load, a file that does not parse is not loaded, and a line of other
characters, or of a numeral above 255, does not parse. -/
theorem failedLoadLeavesNothingToRun : Obligations.FailedLoadLeavesNothingToRun := by
  refine ⟨fun text image hparse hlen => ?_, fun text e hparse => by simp [boot, hparse],
    fun line hline hne ⟨c, hc, h0, h1⟩ => ?_, fun digits hdigits hlarge => ?_, fun text e hboot => by rw [hboot]; rfl⟩
  · have hlong : ¬ image.length ≤ Config.memSize := Nat.not_le.2 hlen
    simp [boot, hparse, State.load, hlong]
  · have htext := trim_stripComment_eq_self fun d hd => (hline d hd).2
    refine parseImage_single (fun hmem => (hline _ hmem).1 rfl) (parseLine_of_malformed (by rwa [htext]) ?_)
    rw [htext, binaryValue_eq_none hc h0 h1]
  · have hne : digits ≠ [] := by
      rintro rfl
      simp [binaryNumeral] at hlarge
    have htext := trim_stripComment_eq_self fun d hd => (digit_not_special (hdigits d hd)).2
    refine parseImage_single (fun hmem => (digit_not_special (hdigits _ hmem)).1 rfl) ?_
    rw [parseLine_of_value (by rwa [htext]) (by rw [htext, binaryValue_zero hdigits]), if_neg (by omega)]

/-- Settles O47: the file is cut into its lines, each line is read as its literal, and a literal of eight bits is its
byte. -/
theorem imageFileOfBinaryLinesParses : Obligations.ImageFileOfBinaryLinesParses := by
  refine ⟨fun lines last hlines hlast => ?_,
    fun b => ⟨by simp [binaryLiteral], fun c hc => ?_, binaryNumeral_binaryLiteral b⟩⟩
  · have hall : ∀ l ∈ lines ++ [last], l.Ok := by
      intro l hl
      obtain hl | hl := List.mem_append.1 hl
      · exact hlines l hl
      · rwa [List.mem_singleton.1 hl]
    rw [parseImage, splitLines_flatMap_text hlines hlast, parseLines_map_text hall]
  · obtain ⟨k, -, rfl⟩ := List.mem_map.1 hc
    split
    · exact .inr rfl
    · exact .inl rfl

/-- Settles O50: the bytes of the word stand at pc, and they decode to the instruction whatever follows them. -/
theorem placedTableWordRunsNext : Obligations.PlacedTableWordRunsNext := by
  intro s nbits w i hwf hrun hpc hword
  obtain ⟨rest, hdec⟩ := decode_of_decodeTableWord hword
  obtain ⟨more, hwindow⟩ := (bytesAtPc_withFetchWord hwf hpc nbits w).window_append (Nat.le_refl 3)
  exact step_of_decode_ok (s := s.withFetchWord nbits w) hrun (hwindow ▸ decode_append hdec more)

end Sys2Proof.Machine
end

section
/-! Text: the decimal numerals the host writes (R180) and the assembly text of an instruction (R78). -/

namespace Sys2Proof.Machine

/-! ## Digits -/

theorem digitChar_toNat {d : Nat} (h : d < 10) : (digitChar d).toNat = 48 + d := by
  interval_cases d <;> rfl

/-- A decimal digit reads back in every base above it. -/
theorem digitValue_digitChar {base d : Nat} (h : d < 10) (hbase : d < base) :
    digitValue base (digitChar d) = some d := by
  have hrange : 48 ≤ 48 + d ∧ 48 + d ≤ 57 := by omega
  simp [digitValue, digitChar_toNat h, hrange, hbase]

/-- A character whose code is no digit's is no digit. -/
theorem digitChar_ne {d : Nat} (h : d < 10) {c : Char} (hc : c.toNat < 48 ∨ 57 < c.toNat) : digitChar d ≠ c := by
  rintro rfl
  rw [digitChar_toNat h] at hc
  omega

/-- Only the digit 0 is written `0`. -/
theorem eq_zero_of_digitChar {d : Nat} (h : d < 10) (h0 : digitChar d = '0') : d = 0 := by
  have hcode := congrArg Char.toNat h0
  rw [digitChar_toNat h] at hcode
  simpa using hcode

/-! ## Numerals -/

/-- A string of decimal digits is read most significant first. -/
theorem numeralValue_map_digitChar (acc : Nat) {ds : List Nat} (h : ∀ d ∈ ds, d < 10) :
    numeralValue 10 acc (ds.map digitChar) = some (ds.foldl (fun a d => 10 * a + d) acc) := by
  induction ds generalizing acc with
  | nil => rfl
  | cons d ds ih =>
    have hd : d < 10 := h d (by simp)
    simp [numeralValue, digitValue_digitChar hd hd, ih _ fun e he => h e (by simp [he])]

/-- A string of characters without an `x` or a `b` after its first is read as a decimal immediate. -/
theorem parseImm_of_decimal {cs : List Char} (hne : cs ≠ []) (hx : 'x' ∉ cs) (hb : 'b' ∉ cs) {v : Nat}
    (hvalue : numeralValue 10 0 cs = some v) (hle : v ≤ 255) : parseImm cs = some (BitVec.ofNat 8 v) := by
  unfold parseImm
  split
  · contradiction
  · simp at hx
  · simp at hb
  · simp [hvalue, hle]

/-- The decimal digits of a number below 1000, most significant first. -/
def decimalDigits (n : Nat) : List Nat :=
  if n < 10 then [n] else if n < 100 then [n / 10, n % 10] else [n / 100, n / 10 % 10, n % 10]

theorem decimal_eq_map (v : Byte) : decimal v = (decimalDigits v.toNat).map digitChar := by
  simp only [decimal, decimalDigits]
  split
  · rfl
  · split <;> rfl

theorem decimalDigits_lt {n d : Nat} (hn : n < 1000) (h : d ∈ decimalDigits n) : d < 10 := by
  unfold decimalDigits at h
  split_ifs at h <;> simp at h <;> omega

/-- The digits make up the number. -/
theorem foldl_decimalDigits {n : Nat} (hn : n < 1000) : (decimalDigits n).foldl (fun a d => 10 * a + d) 0 = n := by
  unfold decimalDigits
  split_ifs <;> simp <;> omega

/-- The numeral of a number other than 0 does not begin with the digit 0. -/
theorem decimalDigits_head {n : Nat} (h : (decimalDigits n).head? = some 0) : n = 0 := by
  unfold decimalDigits at h
  split_ifs at h <;> simp at h <;> omega

/-- The numeral of a byte is made of digits. -/
theorem mem_decimal {v : Byte} {c : Char} (h : c ∈ decimal v) : ∃ d < 10, digitChar d = c := by
  rw [decimal_eq_map] at h
  obtain ⟨d, hd, rfl⟩ := List.mem_map.1 h
  exact ⟨d, decimalDigits_lt (by omega) hd, rfl⟩

/-- No character but the ten digits stands in the numeral of a byte. -/
theorem not_mem_decimal {c : Char} (hc : c.toNat < 48 ∨ 57 < c.toNat) (v : Byte) : c ∉ decimal v := by
  intro h
  obtain ⟨d, hd, hdc⟩ := mem_decimal h
  exact digitChar_ne hd hc hdc

theorem decimal_ne_nil (v : Byte) : decimal v ≠ [] := by
  rw [decimal_eq_map, Ne, List.map_eq_nil_iff]
  unfold decimalDigits
  split_ifs <;> simp

/-- The numeral of a byte reads back as it. -/
theorem parseImm_decimal (v : Byte) : parseImm (decimal v) = some v := by
  have hv : v.toNat < 1000 := by omega
  have hvalue : numeralValue 10 0 (decimal v) = some v.toNat := by
    rw [decimal_eq_map, numeralValue_map_digitChar 0 fun d => decimalDigits_lt hv, foldl_decimalDigits hv]
  rw [parseImm_of_decimal (decimal_ne_nil v) (not_mem_decimal (by decide) v) (not_mem_decimal (by decide) v) hvalue
    (by omega), BitVec.ofNat_toNat, BitVec.setWidth_eq]

/-- Only 0 is written with a 0 in front. -/
theorem eq_zero_of_decimal_head? {v : Byte} (h : (decimal v).head? = some '0') : v = 0 := by
  rw [decimal_eq_map, List.head?_map, Option.map_eq_some_iff] at h
  obtain ⟨d, hhead, hd⟩ := h
  obtain rfl := eq_zero_of_digitChar (decimalDigits_lt (by omega) (List.mem_of_mem_head? hhead)) hd
  exact BitVec.eq_of_toNat_eq (decimalDigits_head hhead)

/-! ## Operands (R78) -/

/-- A mnemonic or the text of one operand: not empty, with no white space and no comma in it. -/
def PlainText (cs : List Char) : Prop := cs ≠ [] ∧ ∀ c ∈ cs, isBlank c = false ∧ c ≠ ','

/-- A text that is written out is plain if it evaluates so. -/
theorem plainText_of_all {cs : List Char} (h : (!cs.isEmpty && cs.all fun c => !isBlank c && c != ',') = true) :
    PlainText cs := by
  simpa [PlainText] using h

theorem plainText_decimal (v : Byte) : PlainText (decimal v) := by
  refine ⟨decimal_ne_nil v, fun c hc => ⟨?_, ?_⟩⟩
  · have hblank (d : Char) (hd : d.toNat < 48 ∨ 57 < d.toNat) : c ≠ d := by
      rintro rfl
      exact not_mem_decimal hd v hc
    simp [isBlank, hblank ' ' (by decide), hblank '\t' (by decide), hblank '\r' (by decide)]
  · rintro rfl
    exact not_mem_decimal (by decide) v hc

theorem plainText_register (v : Byte) : PlainText ('R' :: decimal v) := by
  obtain ⟨-, hplain⟩ := plainText_decimal v
  exact ⟨by simp, List.forall_mem_cons.2 ⟨by decide, hplain⟩⟩

/-- The numeral of a byte is read as an immediate, since it begins with no letter. -/
theorem parseOperand_decimal (v : Byte) : parseOperand (decimal v) = some (.imm v) := by
  have hR := not_mem_decimal (c := 'R') (by decide) v
  have hS := not_mem_decimal (c := 'S') (by decide) v
  unfold parseOperand
  split
  · rename_i heq
    simp [heq] at hS
  · rename_i heq
    simp [heq] at hR
  · simp [parseImm_decimal]

/-- R0 to R7 are read as those registers. -/
theorem parseOperand_register (r : RegIdx) : parseOperand ('R' :: decimal (regByte r)) = some (.reg r) := by
  have hr := r.isLt
  have hdecimal : decimal (regByte r) = [digitChar r.val] := by
    simp [decimal, show r.val < 10 by omega]
  rw [hdecimal]
  simp [parseOperand, digitValue_digitChar (show r.val < 10 by omega) hr]

/-! ## Lines (R78) -/

/-- The operand list is what stands between the commas after the mnemonic's space. -/
theorem parseOperands_space_cons {cs : List Char} (hne : cs ≠ []) (h : ∀ c ∈ cs, isBlank c = false) :
    parseOperands (' ' :: cs) = (splitCommas cs).mapM fun part => parseOperand (trim part) := by
  have htrim : trim (' ' :: cs) = cs := by
    simpa using trim_padded [' '] cs [] (by simp [isBlank]) h (by simp)
  unfold parseOperands
  rw [htrim]
  split
  · contradiction
  · rfl

/-- An instruction of a mnemonic alone. -/
theorem parseAsm_alone {m : List Char} (hm : PlainText m) : parseAsm m = instrOf m [] := by
  obtain ⟨-, hplain⟩ := hm
  have hword : ∀ c ∈ m, (!isBlank c) = true := fun c hc => by simp [(hplain c hc).1]
  have hrest : m.dropWhile (fun c => !isBlank c) = [] := List.dropWhile_eq_nil_iff.2 hword
  have hfirst : m.takeWhile (fun c => !isBlank c) = m := List.takeWhile_eq_self_iff.2 hword
  have hnone : parseOperands [] = some [] := rfl
  simp [parseAsm, trim_eq_self m fun c hc => (hplain c hc).1, hrest, hfirst, hnone]

/-- A mnemonic, a space and an operand list without white space. -/
theorem parseAsm_append {m cs : List Char} {os : List Operand} (hm : PlainText m) (hne : cs ≠ [])
    (hcs : ∀ c ∈ cs, isBlank c = false) (h : parseOperands (' ' :: cs) = some os) :
    parseAsm (m ++ ' ' :: cs) = instrOf m os := by
  obtain ⟨hm, hplain⟩ := hm
  have hword : ∀ c ∈ m, (!isBlank c) = true := fun c hc => by simp [(hplain c hc).1]
  have htrim : trim (m ++ ' ' :: cs) = m ++ ' ' :: cs := by
    simpa using trim_between m [' '] cs hm hne (fun c hc => (hplain c hc).1) hcs
  have hrest : (m ++ ' ' :: cs).dropWhile (fun c => !isBlank c) = ' ' :: cs := by
    rw [List.dropWhile_append_of_pos hword]
    rfl
  have hfirst : (m ++ ' ' :: cs).takeWhile (fun c => !isBlank c) = m := by
    rw [List.takeWhile_append_of_pos hword]
    simp [isBlank]
  simp [parseAsm, htrim, hrest, hfirst, h]

section
variable {m p q : List Char} {o u : Operand} (hm : PlainText m) (hp : PlainText p) (ho : parseOperand p = some o)
include hm hp ho

/-- An instruction of one operand. -/
theorem parseAsm_one : parseAsm (m ++ ' ' :: p) = instrOf m [o] := by
  obtain ⟨hne, hplain⟩ := hp
  have hblank : ∀ c ∈ p, isBlank c = false := fun c hc => (hplain c hc).1
  refine parseAsm_append hm hne hblank ?_
  rw [parseOperands_space_cons hne hblank, splitCommas_single p fun hmem => (hplain _ hmem).2 rfl]
  simp [trim_eq_self p hblank, ho]

/-- An instruction of two operands. -/
theorem parseAsm_two (hq : PlainText q) (hu : parseOperand q = some u) :
    parseAsm (m ++ ' ' :: (p ++ ',' :: q)) = instrOf m [o, u] := by
  obtain ⟨hne, hplain⟩ := hp
  obtain ⟨-, hqplain⟩ := hq
  have hblank : ∀ c ∈ p, isBlank c = false := fun c hc => (hplain c hc).1
  have hqblank : ∀ c ∈ q, isBlank c = false := fun c hc => (hqplain c hc).1
  have hall : ∀ c ∈ p ++ ',' :: q, isBlank c = false :=
    List.forall_mem_append.2 ⟨hblank, List.forall_mem_cons.2 ⟨by decide, hqblank⟩⟩
  refine parseAsm_append hm (by simp) hall ?_
  rw [parseOperands_space_cons (by simp) hall, splitCommas_append p q fun hmem => (hplain _ hmem).2 rfl,
    splitCommas_single q fun hmem => (hqplain _ hmem).2 rfl]
  simp [trim_eq_self p hblank, trim_eq_self q hqblank, ho, hu]

end

/-- The text of an instruction of one register. -/
theorem parseAsm_register {m : List Char} (hm : PlainText m) (r : RegIdx) :
    parseAsm (m ++ ' ' :: 'R' :: decimal (regByte r)) = instrOf m [.reg r] :=
  parseAsm_one hm (plainText_register _) (parseOperand_register r)

/-- The text of an instruction of two registers. -/
theorem parseAsm_registers {m : List Char} (hm : PlainText m) (q r : RegIdx) :
    parseAsm (m ++ ' ' :: ('R' :: decimal (regByte q) ++ ',' :: 'R' :: decimal (regByte r))) =
      instrOf m [.reg q, .reg r] :=
  parseAsm_two hm (plainText_register _) (parseOperand_register q) (plainText_register _) (parseOperand_register r)

/-! ## The obligations -/

/-- Settles O49: the numeral's digits are read most significant first. -/
theorem renderedByteReadsBackInDecimal : Obligations.RenderedByteReadsBackInDecimal :=
  fun v out => ⟨by simp [renderOutput], parseImm_decimal v, eq_zero_of_decimal_head?⟩

/-- Settles O18, instruction by instruction: the mnemonic ends at the space and the operands at the comma. -/
theorem assemblyTextReadsBack : Obligations.AssemblyTextReadsBack := by
  intro i hwf
  rcases wellFormed_cases hwf with ⟨r, v, rfl⟩ | ⟨r, rfl⟩ | ⟨u, v, rfl⟩ | ⟨r, rfl⟩ | ⟨r, rfl⟩ | rfl | ⟨r, rfl⟩ | rfl |
    ⟨q, r, rfl⟩ | ⟨q, r, rfl⟩ | ⟨r, rfl⟩ | ⟨r, rfl⟩ | ⟨r, rfl⟩
  · have h := parseAsm_two (m := ['L', 'D', 'I']) (plainText_of_all rfl) (plainText_register _)
      (parseOperand_register r) (plainText_decimal v) (parseOperand_decimal v)
    simpa [asmText, instrOf] using h
  · exact parseAsm_register (m := ['P', 'R', 'N']) (plainText_of_all rfl) r
  · have h := parseAsm_two (m := ['M', 'U', 'L']) (plainText_of_all rfl) (plainText_decimal u) (parseOperand_decimal u)
      (plainText_decimal v) (parseOperand_decimal v)
    simpa [asmText, instrOf] using h
  · exact parseAsm_register (m := ['P', 'U', 'S', 'H']) (plainText_of_all rfl) r
  · exact parseAsm_register (m := ['P', 'O', 'P']) (plainText_of_all rfl) r
  · exact parseAsm_alone (m := ['H', 'L', 'T']) (plainText_of_all rfl)
  · exact parseAsm_register (m := ['C', 'A', 'L', 'L']) (plainText_of_all rfl) r
  · exact parseAsm_alone (m := ['R', 'E', 'T']) (plainText_of_all rfl)
  · simpa [asmText, instrOf] using parseAsm_registers (m := ['A', 'D', 'D']) (plainText_of_all rfl) q r
  · simpa [asmText, instrOf] using parseAsm_registers (m := ['C', 'M', 'P']) (plainText_of_all rfl) q r
  · exact parseAsm_register (m := ['J', 'E', 'Q']) (plainText_of_all rfl) r
  · exact parseAsm_register (m := ['J', 'N', 'E']) (plainText_of_all rfl) r
  · exact parseAsm_register (m := ['J', 'M', 'P']) (plainText_of_all rfl) r

end Sys2Proof.Machine
end
